-- ==== Sys2Proof/Word.lean ====
section
/-! DEFINITION. The word types of the SUB001 core (00_scope.md R2, R5, R7; 40_word_arithmetic.md R140).
R2 takes the few numbers of the source as normative: the 32-bit word and the 16-bit halves stand here, the field widths in
`Syntax.lean` (`Fields`), the sizes of the banks and the rate of the clock in `Config.lean`, the four index registers and
the 16-bit clock in `Machine/State.lean` (`IxRegs`, `State.rtc`).
Only the types stand here. The arithmetic on them is in `Sys2Proof/Machine/Arith.lean`. -/

namespace Sys2Proof

/-- A Word: 32 bits, "semantically two independent 16-bit one's-complement fractional halves" (R2, R12, R140). -/
abbrev Word := BitVec 32

/-- One half of a word: a sign bit and 15 magnitude bits (R2, R5, R143). -/
abbrev Half := BitVec 16

/-- The pattern of an index register, read as a two's-complement integer (R8, R22). -/
abbrev IxWord := BitVec 16

/-- A 15-bit value: the instruction's address field, the program counter, an I/O address (R24, R71, R101). -/
abbrev Addr := BitVec 15

end Sys2Proof
end

