-- ==== Sys2Proof/Syntax.lean ====
section
/-! DEFINITION. The instructions of the SUB001 core: one constructor of `Instr` for each row of
`spec/opcode_table.json` (30_encoding.md R106), with the operands its operand form uses (R107). -/

namespace Sys2Proof

/-- One of the two memories: "a 1/2 discriminator, not a numeric offset" (20_memory.md R61). -/
inductive Bank where
  | bank1
  | bank2
deriving DecidableEq, Repr

/-- The index-select field `I.xs`: 0 names no register, k in 1..3 names `ix[k-1]` (R22, R105). -/
inductive IndexSel where
  | none
  | x0
  | x1
  | x2
deriving DecidableEq, Repr

/-- The fields `decode` extracts from any word (30_encoding.md R101, R104), of the widths 3, 4, 2, 1 and 15
bits that 00_scope.md R2 takes as normative. -/
structure Fields where
  cls : BitVec 3
  op : BitVec 4
  xs : BitVec 2
  bank : BitVec 1
  addr : Addr
deriving DecidableEq, Repr

/-- The 24 instructions (R106). A field that the operand form ignores (R107) is no operand. In forms X and XO the
index select is the register acted on; the value `IndexSel.none` there names no register, and such an instruction is
an unrecognised combination (R110). -/
inductive Instr where
  /-- HLT, form N (R260). -/
  | hlt
  /-- LDA, form M (R210). -/
  | lda (xs : IndexSel) (bank : Bank) (addr : Addr)
  /-- ADD, form M (R211). -/
  | add (xs : IndexSel) (bank : Bank) (addr : Addr)
  /-- SUB, form M (R212). -/
  | sub (xs : IndexSel) (bank : Bank) (addr : Addr)
  /-- MUL, form M (R213). -/
  | mul (xs : IndexSel) (bank : Bank) (addr : Addr)
  /-- STO, form M (R220). -/
  | sto (xs : IndexSel) (bank : Bank) (addr : Addr)
  /-- STL, form M (R221). -/
  | stl (xs : IndexSel) (bank : Bank) (addr : Addr)
  /-- STR, form M (R222). -/
  | str (xs : IndexSel) (bank : Bank) (addr : Addr)
  /-- SHLB, form S (R231). -/
  | shlb (count : Addr)
  /-- SHLL, form S (R232). -/
  | shll (count : Addr)
  /-- SHLR, form S (R233). -/
  | shlr (count : Addr)
  /-- SHRB, form S (R234). -/
  | shrb (count : Addr)
  /-- SHRL, form S (R235). -/
  | shrl (count : Addr)
  /-- SHRR, form S (R236). -/
  | shrr (count : Addr)
  /-- JMP, form M (R240). -/
  | jmp (xs : IndexSel) (bank : Bank) (addr : Addr)
  /-- BNZ, form M (R241). -/
  | bnz (xs : IndexSel) (bank : Bank) (addr : Addr)
  /-- BZE, form M (R242). -/
  | bze (xs : IndexSel) (bank : Bank) (addr : Addr)
  /-- TIX, form X (R243). -/
  | tix (xs : IndexSel) (bank : Bank) (addr : Addr)
  /-- JSR, form M (R244). -/
  | jsr (xs : IndexSel) (bank : Bank) (addr : Addr)
  /-- RET, form M (R246). -/
  | ret (xs : IndexSel) (bank : Bank) (addr : Addr)
  /-- RDF, form IO (R250). -/
  | rdf (xs : IndexSel) (addr : Addr)
  /-- WRF, form IO (R251). -/
  | wrf (xs : IndexSel) (addr : Addr)
  /-- LDX, form X (R252). -/
  | ldx (xs : IndexSel) (bank : Bank) (addr : Addr)
  /-- CLX, form XO (R253). -/
  | clx (xs : IndexSel)
deriving DecidableEq, Repr

end Sys2Proof
end

