-- ==== Sys2Proof/WellFormed.lean ====
section
/-! DEFINITION. When an instruction names everything it needs: the three instructions whose subject is an index
register must name one (30_encoding.md R107, R110). Every other operand is in range by its type. -/

namespace Sys2Proof

/-- The index select names a register: "must be 1..3" (R107). -/
def IndexSel.namesRegister : IndexSel → Bool
  | .none => false
  | .x0 => true
  | .x1 => true
  | .x2 => true

/-- An instruction of form X or XO names an index register. One that does not is an unrecognised combination: it
decodes, and executing it halts the core (R110, R261). -/
def Instr.wellFormed : Instr → Bool
  | .tix xs _ _ => xs.namesRegister
  | .ldx xs _ _ => xs.namesRegister
  | .clx xs => xs.namesRegister
  | .hlt => true
  | .lda _ _ _ => true
  | .add _ _ _ => true
  | .sub _ _ _ => true
  | .mul _ _ _ => true
  | .sto _ _ _ => true
  | .stl _ _ _ => true
  | .str _ _ _ => true
  | .shlb _ => true
  | .shll _ => true
  | .shlr _ => true
  | .shrb _ => true
  | .shrl _ => true
  | .shrr _ => true
  | .jmp _ _ _ => true
  | .bnz _ _ _ => true
  | .bze _ _ _ => true
  | .jsr _ _ _ => true
  | .ret _ _ _ => true
  | .rdf _ _ => true
  | .wrf _ _ => true

end Sys2Proof
end

