-- ==== Sys2Proof/Decode.lean ====
section
/-! DEFINITION. From words to instructions and back (30_encoding.md R100 to R110). The field positions (R102) and the
opcode map (R106) stand here and nowhere else. -/

namespace Sys2Proof

/-- The bank a bank bit names: 0 is bank 1, 1 is bank 2 (R61, R102, decision D3). -/
def bankOfBit (b : BitVec 1) : Bank :=
  if b = 0#1 then .bank1 else .bank2

/-- The bit that names a bank (R61, R102, decision D3). -/
def bankBit : Bank → BitVec 1
  | .bank1 => 0#1
  | .bank2 => 1#1

/-- The register an index-select field names (R105). -/
def indexSelOfBits (xs : BitVec 2) : IndexSel :=
  if xs = 0#2 then .none else if xs = 1#2 then .x0 else if xs = 2#2 then .x1 else .x2

/-- The index-select field that names a register (R105). -/
def indexSelBits : IndexSel → BitVec 2
  | .none => 0#2
  | .x0 => 1#2
  | .x1 => 2#2
  | .x2 => 3#2

/-- `decode(w)` of R104, "a pure function extracting fixed bit-fields": bits 30:28, 27:24, 23:22, 15 and 14:0 (R102).
Bits 31 and 21:16 take no part (R103; log entry 12). -/
def decodeFields (w : Word) : Fields where
  cls := w.extractLsb' 28 3
  op := w.extractLsb' 24 4
  xs := w.extractLsb' 22 2
  bank := w.extractLsb' 15 1
  addr := w.extractLsb' 0 15

/-- `encode` of R108, `(cls << 28) | (op << 24) | (xs << 22) | (bank << 15) | addr`: the canonical word, with bits 31 and
21:16 zero. -/
def encodeFields (f : Fields) : Word :=
  (f.cls.setWidth 32 <<< 28) ||| (f.op.setWidth 32 <<< 24) ||| (f.xs.setWidth 32 <<< 22) |||
    (f.bank.setWidth 32 <<< 15) ||| f.addr.setWidth 32

/-- What a word decodes to: an instruction of the opcode map, or an unrecognised pair of class and opcode, by its
numbers (R104 "undefined opcodes are a valid decoded value"; R110). -/
inductive Decoded where
  | instr (i : Instr)
  | unrecognised (cls : BitVec 3) (op : BitVec 4)
deriving DecidableEq, Repr

/-- The opcode map (R106, R190), read by class and opcode. TIX, LDX and CLX with no register named decode to their
constructors (DEDUCED, safe, log entry 10). -/
def dispatchFields (f : Fields) : Decoded :=
  let xs := indexSelOfBits f.xs
  let b := bankOfBit f.bank
  let a := f.addr
  match f.cls.toNat, f.op.toNat with
  | 0, 0 => .instr .hlt
  | 1, 0 => .instr (.lda xs b a)
  | 1, 1 => .instr (.add xs b a)
  | 2, 0 => .instr (.sub xs b a)
  | 3, 0 => .instr (.mul xs b a)
  | 4, 0 => .instr (.sto xs b a)
  | 4, 1 => .instr (.stl xs b a)
  | 4, 2 => .instr (.str xs b a)
  | 5, 0 => .instr (.shlb a)
  | 5, 1 => .instr (.shll a)
  | 5, 2 => .instr (.shlr a)
  | 5, 3 => .instr (.shrb a)
  | 5, 4 => .instr (.shrl a)
  | 5, 5 => .instr (.shrr a)
  | 6, 0 => .instr (.jmp xs b a)
  | 6, 1 => .instr (.bnz xs b a)
  | 6, 2 => .instr (.bze xs b a)
  | 6, 3 => .instr (.tix xs b a)
  | 6, 4 => .instr (.jsr xs b a)
  | 6, 5 => .instr (.ret xs b a)
  | 7, 0 => .instr (.rdf xs a)
  | 7, 1 => .instr (.wrf xs a)
  | 7, 2 => .instr (.ldx xs b a)
  | 7, 3 => .instr (.clx xs)
  | _, _ => .unrecognised f.cls f.op

/-- The decoder: total, on every 32-bit pattern (R104, R106). -/
def decode (w : Word) : Decoded :=
  dispatchFields (decodeFields w)

/-- The fields of an instruction's canonical word: the class and opcode of R106, the operands its form uses, and 0 in
the operand fields its form ignores (R107, R113). -/
def instrFields : Instr → Fields
  | .hlt => ⟨0, 0, 0, 0, 0⟩
  | .lda xs b a => ⟨1, 0, indexSelBits xs, bankBit b, a⟩
  | .add xs b a => ⟨1, 1, indexSelBits xs, bankBit b, a⟩
  | .sub xs b a => ⟨2, 0, indexSelBits xs, bankBit b, a⟩
  | .mul xs b a => ⟨3, 0, indexSelBits xs, bankBit b, a⟩
  | .sto xs b a => ⟨4, 0, indexSelBits xs, bankBit b, a⟩
  | .stl xs b a => ⟨4, 1, indexSelBits xs, bankBit b, a⟩
  | .str xs b a => ⟨4, 2, indexSelBits xs, bankBit b, a⟩
  | .shlb n => ⟨5, 0, 0, 0, n⟩
  | .shll n => ⟨5, 1, 0, 0, n⟩
  | .shlr n => ⟨5, 2, 0, 0, n⟩
  | .shrb n => ⟨5, 3, 0, 0, n⟩
  | .shrl n => ⟨5, 4, 0, 0, n⟩
  | .shrr n => ⟨5, 5, 0, 0, n⟩
  | .jmp xs b a => ⟨6, 0, indexSelBits xs, bankBit b, a⟩
  | .bnz xs b a => ⟨6, 1, indexSelBits xs, bankBit b, a⟩
  | .bze xs b a => ⟨6, 2, indexSelBits xs, bankBit b, a⟩
  | .tix xs b a => ⟨6, 3, indexSelBits xs, bankBit b, a⟩
  | .jsr xs b a => ⟨6, 4, indexSelBits xs, bankBit b, a⟩
  | .ret xs b a => ⟨6, 5, indexSelBits xs, bankBit b, a⟩
  | .rdf xs a => ⟨7, 0, indexSelBits xs, 0, a⟩
  | .wrf xs a => ⟨7, 1, indexSelBits xs, 0, a⟩
  | .ldx xs b a => ⟨7, 2, indexSelBits xs, bankBit b, a⟩
  | .clx xs => ⟨7, 3, indexSelBits xs, 0, 0⟩

/-- The encoder: the canonical word of an instruction (R108). -/
def encode (i : Instr) : Word :=
  encodeFields (instrFields i)

/-- The instruction the decoder reads from a table row's bits. An instruction is one 32-bit word in one slot (R100), so
the row's bits are the word itself. -/
def decodeTableWord (nbits w : Nat) : Option Instr :=
  match decode (BitVec.ofNat 32 (w % 2 ^ nbits)) with
  | .instr i => some i
  | .unrecognised _ _ => none

end Sys2Proof
end

