-- ==== Sys2Proof/Machine/Arith.lean ====
section
/-! DEFINITION. The arithmetic unit (40_word_arithmetic.md): pure functions on words and halves. "None of them reads or
writes machine state. Every one is total." -/

namespace Sys2Proof.Machine

/-! ## The word and its halves -/

/-- The left half, bits 31:16 (R140). -/
def leftHalf (w : Word) : Half :=
  w.extractLsb' 16 16

/-- The right half, bits 15:0 (R140). -/
def rightHalf (w : Word) : Half :=
  w.extractLsb' 0 16

/-- `split(w)` (R140). -/
def split (w : Word) : Half × Half :=
  (leftHalf w, rightHalf w)

/-- `join(left, right)` (R141). -/
def join (l r : Half) : Word :=
  l ++ r

/-! ## The half as a fraction -/

/-- The 15 magnitude bits of a half as a number: of the half itself when its sign bit is 0, of its complement when it
is 1 (R143, R153). -/
def magnitude (h : Half) : Nat :=
  if h.msb then ((~~~h).extractLsb' 0 15).toNat else (h.extractLsb' 0 15).toNat

/-- `frac(h)`, the exact rational value of a half (R143). -/
def frac (h : Half) : Rat :=
  if h.msb then -((magnitude h : Rat) / 32768) else (magnitude h : Rat) / 32768

/-- `from_fraction(q)` (R144): saturates at both ends and truncates the magnitude toward zero (decision D26). Host
side only: no instruction uses it (log entry 16). -/
def fromFraction (q : Rat) : Half :=
  if 1 ≤ q then 0x7FFF#16
  else if q ≤ -1 then 0x8000#16
  else if 0 ≤ q then BitVec.ofNat 16 (q * 32768).floor.toNat
  else ~~~(BitVec.ofNat 16 (-q * 32768).floor.toNat)

/-! ## Negation and addition -/

/-- `negate(h)`: the bitwise complement (R146). -/
def negate (h : Half) : Half :=
  ~~~h

/-- `wneg(w)`: both halves negated (R146). -/
def wneg (w : Word) : Word :=
  join (negate (leftHalf w)) (negate (rightHalf w))

/-- `add1c(a, b)`: one's-complement addition with end-around carry (R147). -/
def add1c (a b : Half) : Half :=
  let s := a.toNat + b.toNat
  if 0x10000 ≤ s then BitVec.ofNat 16 (s - 0x10000 + 1) else BitVec.ofNat 16 s

/-- `asr1(h) = (h & 0x8000) | (h >> 1)` (R149). -/
def asr1 (h : Half) : Half :=
  (h &&& 0x8000#16) ||| (h >>> 1)

/-- `padd_shift(w1, w2)`, the source's `parallel_add_with_shift`: each half summed on its own, then each sum shifted
right one place, the carry not shifted in (R150). -/
def paddShift (w1 w2 : Word) : Word :=
  join (asr1 (add1c (leftHalf w1) (leftHalf w2))) (asr1 (add1c (rightHalf w1) (rightHalf w2)))

/-- `psub_shift(w1, w2) = padd_shift(w1, wneg(w2))` (R152, decision D11). -/
def psubShift (w1 w2 : Word) : Word :=
  paddShift w1 (wneg w2)

/-! ## Multiplication -/

/-- `mul1c(a, b)`: the product of the magnitudes with its low 15 bits dropped, complemented when the signs differ; a
zero product keeps that sign (R153, decision D12). -/
def mul1c (a b : Half) : Half :=
  let p := (magnitude a * magnitude b) >>> 15
  if a.msb != b.msb then ~~~(BitVec.ofNat 16 p) else BitVec.ofNat 16 p

/-- `pmul(w1, w2)`: "parallel on both halves, no implicit shift" (R154). -/
def pmul (w1 w2 : Word) : Word :=
  join (mul1c (leftHalf w1) (leftHalf w2)) (mul1c (rightHalf w1) (rightHalf w2))

/-! ## Shifts -/

/-- `shl16(h, n) = (h << n) & 0xFFFF` (R155): a count of 16 or more gives `0x0000`. -/
def shl16 (h : Half) (n : Nat) : Half :=
  h <<< n

/-- `shr16(h, n) = h >> n`, logical (R155): a count of 16 or more gives `0x0000`. -/
def shr16 (h : Half) (n : Nat) : Half :=
  h >>> n

end Sys2Proof.Machine
end

