-- ==== Sys2Proof/Config.lean ====
section
/-! DEFINITION. What an implementation fixes (00_scope.md R5; 92_eei_decisions.md, section 7) and the values the spec
leaves open. The numbering choices a test could show wrong (field positions, opcode map, I/O map, register formats)
are not here but in `Decode.lean` and under `Machine/`. -/

namespace Sys2Proof.Config

/-- `BANK1_SIZE`: 65536 words (R2, R5, R31). -/
def bank1Size : Nat := 65536

/-- `BANK2_SIZE`: 4096 words (R2, R5, R31). -/
def bank2Size : Nat := 4096

/-- `RTC_HZ`: the real-time clock counts 32 pulses a second (R2, R5; 60_exceptions.md R318). -/
def rtcHz : Nat := 32

/-- `FIELD_SIZE[f]`: 4096 words for every drum field (R5, R32, decision D19; DESIGN CHOICE, log entry 7). -/
def fieldSize : Nat := 4096

/-- What a slot reads as that the sparse list does not name: `0x0000_0000`. For the drum fields this is the power-on
value the spec gives (R32, D28). For the banks the spec leaves `mem_init` OPEN and names this word as the default a
model may use (R340, D29; DESIGN CHOICE, unsafe, log entry 2). Every contents of a bank can still be written down as a list, so a statement
over all states is a statement over every `mem_init`. -/
def unlistedWord : Word := 0x00000000#32

/-- The OPEN part of `LG_RADIUS`: no body, so no proof can see its value (R293, D25; log entry 5, safe). -/
opaque lgRadiusSlack : Fin 3198

/-- The greatest integer not above `LG_RADIUS^2`. `LG_RADIUS` is a real number that the machine only ever squares and
compares with a whole squared distance, so this number decides every such comparison. All that is known of it is the
spec's bound, `2 <= LG_RADIUS^2 < 3200` (R293). -/
def lgRadiusSq : Nat := 2 + lgRadiusSlack.val

/-- `CandId`, the type of light-gun candidate identifiers: OPEN in the spec, "any type with decidable equality"
(R5, D25; DESIGN CHOICE, log entry 6). The machine stores an identifier and gives it back and does nothing else with it. -/
abbrev CandId := Nat

/-- `Coord`: mathematical integers (R5, D25). -/
abbrev Coord := Int

end Sys2Proof.Config
end

