-- ==== Sys2Proof/Machine/State.lean ====
section
/-! DEFINITION. The state of the machine (10_state.md R20): the CPU core registers, the two memory banks, the six drum
fields, the status channels and the light gun. "Nothing else is state" (R20). -/

namespace Sys2Proof.Machine

/-- One listed slot of a bank or of a drum field: its offset and its word. The unit of every space is the 32-bit word;
the machine has no bytes (20_memory.md R60, R64; DESIGN CHOICE, safe, log entry 1). -/
abbrev Slot := Nat × Word

/-- The contents of a bank or of a drum field, sparse: the listed slots in strictly rising order of offset, none of
them equal to `Config.unlistedWord`, which every other slot holds. -/
abbrev Store := List Slot

/-- The four index registers, 16-bit patterns read as two's-complement integers (00_scope.md R2; R22). No instruction can name `ix3`
(R23). -/
structure IxRegs where
  ix0 : IxWord
  ix1 : IxWord
  ix2 : IxWord
  ix3 : IxWord
deriving DecidableEq, Repr

/-- The two memory banks (R31). -/
structure Memory where
  bank1 : Store
  bank2 : Store
deriving DecidableEq, Repr

/-- A drum field, fields 0 to 5 in order (R32). -/
inductive Field where
  | lri
  | gfi
  | xtl
  | sdf
  | log
  | tmp
deriving DecidableEq, Repr

/-- The six drum fields (R32). -/
structure Drum where
  lri : Store
  gfi : Store
  xtl : Store
  sdf : Store
  log : Store
  tmp : Store
deriving DecidableEq, Repr

/-- A status channel: channel 0 to 5 belongs to the drum field of that number, channel 6 is the light gun's (R33,
48_drum_io.md R271). -/
inductive Channel where
  | field (f : Field)
  | lg
deriving DecidableEq, Repr

/-- The status channels of the six drum fields, `chan[0..5]` (R33). Channel 6 is `LightGun.flash` and has no bit of its
own. -/
structure Channels where
  lri : Bool
  gfi : Bool
  xtl : Bool
  sdf : Bool
  log : Bool
  tmp : Bool
deriving DecidableEq, Repr

/-- The light gun: `lg.armed`, `lg.flash`, `lg.tx`, `lg.ty` and `lg.hit` (R34). `hit` is meaningful only while `flash`
is set. -/
structure LightGun where
  armed : Bool
  flash : Bool
  tx : Config.Coord
  ty : Config.Coord
  hit : Config.CandId
deriving DecidableEq, Repr

/-- The complete state of the machine (R20). The real-time clock `rtc` has 16 bits (00_scope.md R2; R27). -/
structure State where
  acc : Word
  ix : IxRegs
  pc : Addr
  pcBank : Bank
  rtc : BitVec 16
  icount : Nat
  running : Bool
  mem : Memory
  drum : Drum
  chan : Channels
  lg : LightGun
deriving DecidableEq, Repr

/-- What stops the machine with a fault: nothing. "The CPU raises no synchronous exception ... Every instruction
completes" (60_exceptions.md R310), and an address is never out of bounds (20_memory.md R62). The type has no
constructor, so no step can answer a fault. -/
inductive Fault where
deriving DecidableEq, Repr

/-- Why a step may be refused. -/
inductive Refusal where
  /-- Raised by an arm of `exec` that has no meaning yet, with the row's mnemonic. No arm is in that case. Safe: the
  model stops where the machine goes on. -/
  | notModelled (mnemonic : String)
deriving DecidableEq, Repr

/-- The state at power-on (70_reset_and_hazards.md R340, 10_state.md R38) with the contents `mem_init` of the banks as
an argument, since the spec leaves them OPEN (D29). The value of `lg.hit` is the model's own (DESIGN CHOICE, unsafe, log entry
4): the spec gives none, and nothing reads it while `lg.flash` is 0. -/
def State.powerOn (memInit : Memory) : State where
  acc := 0x00000000#32
  ix := ⟨0#16, 0#16, 0#16, 0#16⟩
  pc := 0#15
  pcBank := .bank1
  rtc := 0#16
  icount := 0
  running := false
  mem := memInit
  drum := ⟨[], [], [], [], [], []⟩
  chan := ⟨false, false, false, false, false, false⟩
  lg := ⟨false, false, 0, 0, 0⟩

/-- The machine right after reset: power-on with the default `mem_init` the spec names, all words `0x0000_0000` (R340,
log entry 2). The host's `reset()` operation, which keeps memory, drum and light gun (R341, R342), is `hostReset` of
`Machine/HostPort.lean`. -/
def State.reset : State :=
  State.powerOn ⟨[], []⟩

end Sys2Proof.Machine
end

