-- ==== Sys2Proof/Machine/Ops.lean ====
section
/-! DEFINITION. The named operations over registers and memory that the meanings share: the register accessors, the
bank reads and writes with their wrap (20_memory.md R62), the program counter's advance and branch (10_state.md R26),
and the implicit halt (60_exceptions.md R314), which is all this machine has in place of an exception. -/

namespace Sys2Proof.Machine

/-! ## Sparse stores -/

/-- The word in slot `a` of a store. -/
def storeRead : Store → Nat → Word
  | [], _ => Config.unlistedWord
  | (k, w) :: m, a => if k = a then w else storeRead m a

/-- A store with slot `a` set to `v`, in canonical form: writing what an unlisted slot reads as removes the entry. -/
def storeWrite : Store → Nat → Word → Store
  | [], a, v => if v = Config.unlistedWord then [] else [(a, v)]
  | (k, w) :: m, a, v =>
    if a < k then
      if v = Config.unlistedWord then (k, w) :: m else (a, v) :: (k, w) :: m
    else if a = k then
      if v = Config.unlistedWord then m else (a, v) :: m
    else (k, w) :: storeWrite m a v

/-- The canonical form from offset `lo` up: offsets strictly rising and below `size`, no listed word equal to what an
unlisted slot reads as. -/
def storeWfFrom (size : Nat) : Nat → Store → Bool
  | _, [] => true
  | lo, (k, w) :: m =>
    decide (lo ≤ k) && decide (k < size) && decide (w ≠ Config.unlistedWord) && storeWfFrom size (k + 1) m

/-- The canonical form of a store of `size` slots. -/
def storeWf (size : Nat) (m : Store) : Bool :=
  storeWfFrom size 0 m

/-! ## The two banks -/

/-- `size(b)`: 65536 for bank 1, 4096 for bank 2 (R9, R31). -/
def bankSize : Bank → Nat
  | .bank1 => Config.bank1Size
  | .bank2 => Config.bank2Size

/-- The slot an integer offset reaches: "out-of-range addresses within a bank wrap via modulo rather than fault"
(R62). The modulus is the mathematical one, so a negative offset wraps too (R8). -/
def slotOf (b : Bank) (a : Int) : Nat :=
  (a % (bankSize b : Int)).toNat

/-- One bank of the memory (R61). -/
def bankOf (m : Memory) : Bank → Store
  | .bank1 => m.bank1
  | .bank2 => m.bank2

/-- The memory with one bank replaced (R61). -/
def setBank (m : Memory) : Bank → Store → Memory
  | .bank1, st => { m with bank1 := st }
  | .bank2, st => { m with bank2 := st }

/-- `MemRead((b, a), 1)` (R10, R62, R63). -/
def memRead (b : Bank) (a : Int) (s : State) : Word :=
  storeRead (bankOf s.mem b) (slotOf b a)

/-- `MemWrite((b, a), 1, v)` (R10, R62): one slot changes and nothing else (R63). -/
def memWrite (b : Bank) (a : Int) (v : Word) (s : State) : State :=
  { s with mem := setBank s.mem b (storeWrite (bankOf s.mem b) (slotOf b a) v) }

/-- The memory is in canonical form. -/
def Memory.wf (m : Memory) : Bool :=
  storeWf (bankSize .bank1) m.bank1 && storeWf (bankSize .bank2) m.bank2

/-! ## Registers -/

/-- The accumulator written (R21). -/
def setAcc (v : Word) (s : State) : State :=
  { s with acc := v }

/-- The pattern in the index register an index select names; `none` where it names no register (R22). -/
def ixRead? (xs : IndexSel) (s : State) : Option IxWord :=
  match xs with
  | .none => none
  | .x0 => some s.ix.ix0
  | .x1 => some s.ix.ix1
  | .x2 => some s.ix.ix2

/-- The index registers with the one an index select names replaced; where it names none, as they were (R22). `ix3` is
out of reach (R23). -/
def ixWith (r : IxRegs) (xs : IndexSel) (v : IxWord) : IxRegs :=
  match xs with
  | .none => r
  | .x0 => { r with ix0 := v }
  | .x1 => { r with ix1 := v }
  | .x2 => { r with ix2 := v }

/-- The index register an index select names, written (R22). -/
def setIx (xs : IndexSel) (v : IxWord) (s : State) : State :=
  { s with ix := ixWith s.ix xs v }

/-- `pc_next = (pc + 1) mod 2^15` (R26): after offset 32767 comes offset 0. -/
def pcNext (s : State) : Addr :=
  s.pc + 1#15

/-- "Program counter auto-increments by one word" (R26, 41_cpu_cycle.md R186); the bank is unchanged (R25). -/
def advance (s : State) : State :=
  { s with pc := pcNext s }

/-- A branch to offset `off` of bank `b`: `pc <- off mod 2^15; pc_bank <- b` (R25, R26, 45_branch.md). -/
def branchTo (b : Bank) (off : Nat) (s : State) : State :=
  { s with pc := BitVec.ofNat 15 off, pcBank := b }

/-- `running <- 0`: the `halt` of R10. -/
def haltCore (s : State) : State :=
  { s with running := false }

/-- The instruction counter's step (R28). -/
def countUp (s : State) : State :=
  { s with icount := s.icount + 1 }

/-- The implicit halt (60_exceptions.md R314, 47_halt.md R261), shared by every case that halts: it "saves nothing,
changes running to 0, leaves pc at pc_next, does not change mode, masks nothing, and transfers control nowhere". The
machine has no exception to take (R310) and none to return from; the host's `start()` resumes at `pc` (R315; log entry 11). -/
def implicitHalt (s : State) : State :=
  advance (haltCore s)

/-! ## Fetch -/

/-- The word a step fetches, at `(pc_bank, pc)`, wrapped like any other access (R26, R83, R186). -/
def fetchWord (s : State) : Word :=
  memRead s.pcBank (s.pc.toNat : Int) s

/-- The word `v` placed where the next step fetches, and the core made to run: what `load_program` followed by
`start()` does with a program of one word (41_cpu_cycle.md R181, R182; DESIGN CHOICE, log entry 3). -/
def placeFetchWord (v : Word) (s : State) : State :=
  { memWrite s.pcBank (s.pc.toNat : Int) v s with running := true }

end Sys2Proof.Machine
end

