-- ==== Sys2Proof/Machine/Flags.lean ====
section
/-! DEFINITION. The tests and one-bit flags of the machine. The CPU has no condition codes (10_state.md R30); the only
flags are the zero test that BNZ and BZE make on the accumulator (40_word_arithmetic.md R156) and the status channels
(48_drum_io.md R271, R274, R280). -/

namespace Sys2Proof.Machine

/-- Either zero of a half, +0 or -0 (R156). -/
def isZeroHalf (h : Half) : Bool :=
  h == 0x0000#16 || h == 0xFFFF#16

/-- A word is zero when both of its halves are (R156, decision D15). -/
def isZeroWord (w : Word) : Bool :=
  isZeroHalf (leftHalf w) && isZeroHalf (rightHalf w)

/-- The channel flag of a drum field (10_state.md R33). -/
def chanFlag (c : Channels) : Field → Bool
  | .lri => c.lri
  | .gfi => c.gfi
  | .xtl => c.xtl
  | .sdf => c.sdf
  | .log => c.log
  | .tmp => c.tmp

/-- The channels with one field's flag set to `v`. -/
def setChanFlag (c : Channels) (f : Field) (v : Bool) : Channels :=
  match f with
  | .lri => { c with lri := v }
  | .gfi => { c with gfi := v }
  | .xtl => { c with xtl := v }
  | .sdf => { c with sdf := v }
  | .log => { c with log := v }
  | .tmp => { c with tmp := v }

/-- `check_status(c)`: "non-blocking poll; does not clear" (R274). Channel 6 is `lg.flash` (R271, R295). -/
def checkStatus (c : Channel) (s : State) : Bool :=
  match c with
  | .field f => chanFlag s.chan f
  | .lg => s.lg.flash

/-- The word a read of STATUS returns: bits 31:7 zero, bit `c` equal to `check_status(c)` (R280, decision D20). -/
def statusWord (s : State) : Word :=
  0#25 ++ BitVec.ofBool s.lg.flash ++ BitVec.ofBool s.chan.tmp ++ BitVec.ofBool s.chan.log ++
    BitVec.ofBool s.chan.sdf ++ BitVec.ofBool s.chan.xtl ++ BitVec.ofBool s.chan.gfi ++ BitVec.ofBool s.chan.lri

/-- The word a read of CLOCK returns, `0x0000 ++ rtc` (R281, decision D21). -/
def clockWord (s : State) : Word :=
  join 0x0000#16 s.rtc

end Sys2Proof.Machine
end

