-- ==== Sys2Proof/Machine/Operands.lean ====
section
/-! DEFINITION. The operand forms (30_encoding.md R107): the effective address of form M, the unindexed address of form
X, the count of form S, the I/O address of form IO and the I/O map it is looked up in, and the link word. -/

namespace Sys2Proof.Machine

/-- The value address formation adds: 0 when the index select names no register, else the register's two's-complement
value (R184). The register is read and never modified (R185). -/
def indexValue (xs : IndexSel) (s : State) : Int :=
  match ixRead? xs s with
  | none => 0
  | some v => v.toInt

/-- The effective offset `EA = (I.addr + index) mod size(I.bank)` of form M (R184). The modulus is taken with and
without an index register (decision D38). -/
def effAddr (xs : IndexSel) (b : Bank) (addr : Addr) (s : State) : Nat :=
  slotOf b ((addr.toNat : Int) + indexValue xs s)

/-- The memory operand of form M, the word at `(I.bank, EA)`. -/
def operand (xs : IndexSel) (b : Bank) (addr : Addr) (s : State) : Word :=
  memRead b (effAddr xs b addr s : Int) s

/-- The unindexed offset `I.addr mod size(I.bank)` of form X (R243, R252). -/
def plainAddr (b : Bank) (addr : Addr) : Nat :=
  slotOf b (addr.toNat : Int)

/-- The count of form S: the address field as it stands, unsigned, not indexed (R230). -/
def shiftCount (n : Addr) : Nat :=
  n.toNat

/-- The I/O address `IOA = (I.addr + index) mod 2^15` of form IO; the bank bit takes no part (20_memory.md R71). -/
def ioAddr (xs : IndexSel) (addr : Addr) (s : State) : Addr :=
  BitVec.ofInt 15 ((addr.toNat : Int) + indexValue xs s)

/-- What an I/O address reaches (20_memory.md R72). -/
inductive IoTarget where
  | field (f : Field) (offset : Nat)
  | status
  | clock
  | unmapped
deriving DecidableEq, Repr

/-- The slot of a drum field an integer offset reaches: it wraps modulo the field's size (20_memory.md R75). -/
def fieldSlot (a : Int) : Nat :=
  (a % (Config.fieldSize : Int)).toNat

/-- `io_decode`: bits 14:12 select the region and bits 11:0 are the offset in it (20_memory.md R72, decision D18). -/
def ioDecode (ioa : Addr) : IoTarget :=
  let offset := (ioa.extractLsb' 0 12).toNat
  match (ioa.extractLsb' 12 3).toNat with
  | 0 => .field .lri (fieldSlot offset)
  | 1 => .field .gfi (fieldSlot offset)
  | 2 => .field .xtl (fieldSlot offset)
  | 3 => .field .sdf (fieldSlot offset)
  | 4 => .field .log (fieldSlot offset)
  | 5 => .field .tmp (fieldSlot offset)
  | 7 => if offset = 0 then .status else if offset = 1 then .clock else .unmapped
  | _ => .unmapped

/-- The link word JSR stores: `join(0x0000, pc_bank ++ pc_next)` (45_branch.md R244, R245). -/
def linkWord (s : State) : Word :=
  join 0x0000#16 (bankBit s.pcBank ++ pcNext s)

/-- The return offset in a link word, bits 14:0 (45_branch.md R245). -/
def linkOffset (w : Word) : Nat :=
  (w.extractLsb' 0 15).toNat

/-- The return bank in a link word, bit 15 (45_branch.md R245). -/
def linkBank (w : Word) : Bank :=
  bankOfBit (w.extractLsb' 15 1)

end Sys2Proof.Machine
end

