-- ==== Sys2Proof/Machine/Arithmetic.lean ====
section
/-! DEFINITION. The arithmetic, compare/subtract and multiply classes: LDA, ADD, SUB, MUL (42_arith.md). All four are of form
M and write nothing but the accumulator and the program counter. -/

namespace Sys2Proof.Machine

/-- LDA: `acc <- MemRead((I.bank, EA), 1)`, copied bit for bit (R210, decision D10). -/
def execLda (xs : IndexSel) (b : Bank) (a : Addr) (s : State) : Host.Outcome State Fault Refusal :=
  .next (advance (setAcc (operand xs b a s) s))

/-- ADD: `acc <- padd_shift(acc, m)` (R211). -/
def execAdd (xs : IndexSel) (b : Bank) (a : Addr) (s : State) : Host.Outcome State Fault Refusal :=
  .next (advance (setAcc (paddShift s.acc (operand xs b a s)) s))

/-- SUB: `acc <- psub_shift(acc, m)` (R212, decision D11). -/
def execSub (xs : IndexSel) (b : Bank) (a : Addr) (s : State) : Host.Outcome State Fault Refusal :=
  .next (advance (setAcc (psubShift s.acc (operand xs b a s)) s))

/-- MUL: `acc <- pmul(acc, m)` (R213). -/
def execMul (xs : IndexSel) (b : Bank) (a : Addr) (s : State) : Host.Outcome State Fault Refusal :=
  .next (advance (setAcc (pmul s.acc (operand xs b a s)) s))

end Sys2Proof.Machine
end

