-- ==== Sys2Proof/Machine/Branch.lean ====
section
/-! DEFINITION. The branch class: JMP, BNZ, BZE, TIX, JSR, RET (45_branch.md). There are no delay slots; a branch carries a full
`(bank, offset)` target. -/

namespace Sys2Proof.Machine

/-- JMP: `new_pc <- EA mod 2^15; new_bank <- I.bank` (R240). -/
def execJmp (xs : IndexSel) (b : Bank) (a : Addr) (s : State) : Host.Outcome State Fault Refusal :=
  .next (branchTo b (effAddr xs b a s) s)

/-- BNZ: branch when the accumulator is not zero (R241, decision D15). -/
def execBnz (xs : IndexSel) (b : Bank) (a : Addr) (s : State) : Host.Outcome State Fault Refusal :=
  .next (if isZeroWord s.acc then advance s else branchTo b (effAddr xs b a s) s)

/-- BZE: branch when the accumulator is zero (R242, decision D15). -/
def execBze (xs : IndexSel) (b : Bank) (a : Addr) (s : State) : Host.Outcome State Fault Refusal :=
  .next (if isZeroWord s.acc then branchTo b (effAddr xs b a s) s else advance s)

/-- TIX: the register named is decremented modulo 2^16, and the branch to the unindexed target is taken when the new
value is positive (R243, decision D16). With no register named the word is an unrecognised combination and halts
(R110, R261). -/
def execTix (xs : IndexSel) (b : Bank) (a : Addr) (s : State) : Host.Outcome State Fault Refusal :=
  match ixRead? xs s with
  | none => .next (implicitHalt s)
  | some old =>
    let v := old - 1#16
    let t := setIx xs v s
    .next (if 0 < v.toInt then branchTo b (plainAddr b a) t else advance t)

/-- JSR: the link word goes into the slot at the target, and execution continues at the target plus one (R244, R245,
decision D17). -/
def execJsr (xs : IndexSel) (b : Bank) (a : Addr) (s : State) : Host.Outcome State Fault Refusal :=
  .next (branchTo b (effAddr xs b a s + 1) (memWrite b (effAddr xs b a s : Int) (linkWord s) s))

/-- RET: `w = MemRead((I.bank, EA), 1); new_pc <- w[14:0]; new_bank <- w[15]` (R246). -/
def execRet (xs : IndexSel) (b : Bank) (a : Addr) (s : State) : Host.Outcome State Fault Refusal :=
  .next (branchTo (linkBank (operand xs b a s)) (linkOffset (operand xs b a s)) s)

end Sys2Proof.Machine
end

