-- ==== Sys2Proof/Machine/Control.lean ====
section
/-! DEFINITION. The control class: HLT, and the words the opcode map does not name (47_halt.md). -/

namespace Sys2Proof.Machine

/-- HLT: `running <- 0`, with `pc = pc_next` as after any step that does not branch (R260, decision D6). -/
def execHlt (s : State) : Host.Outcome State Fault Refusal :=
  .next (advance (haltCore s))

/-- An unrecognised pair of class and opcode: "exactly that of HLT" (R261); "nothing is raised, and no register records
that the halt was implicit". -/
def execUnrecognised (s : State) : Host.Outcome State Fault Refusal :=
  .next (implicitHalt s)

end Sys2Proof.Machine
end

