-- ==== Sys2Proof/Machine/LightGun.lean ====
section
/-! DEFINITION. The light gun's three operations (49_light_gun.md R290 to R294). All are called by the environment; no
instruction calls one. Its flash flag is status channel 6, read and cleared in `Flags.lean` and `Drum.lean`. -/

namespace Sys2Proof.Machine

/-- The detection test against a squared radius: Euclidean, the boundary inside (R293, decision D25). -/
def withinSq (radiusSq : Nat) (g : LightGun) (x y : Config.Coord) : Bool :=
  decide ((x - g.tx) ^ 2 + (y - g.ty) ^ 2 ≤ (radiusSq : Int))

/-- `arm(x, y)`, from any state (R291). The remembered identifier stays as it is; it is no longer observable. -/
def lgArm (x y : Config.Coord) (g : LightGun) : LightGun :=
  { g with armed := true, tx := x, ty := y, flash := false }

/-- `draw_event(candidate_id, x, y)` for a given squared radius: only the first match while Armed has effect (R292). -/
def lgDrawWith (radiusSq : Nat) (c : Config.CandId) (x y : Config.Coord) (g : LightGun) : LightGun × Bool :=
  if g.armed && !g.flash && withinSq radiusSq g x y then ({ g with flash := true, hit := c }, true) else (g, false)

/-- `draw_event(candidate_id, x, y)` with the machine's own radius, of which only the spec's bound is known (R293). -/
def lgDraw (c : Config.CandId) (x y : Config.Coord) (g : LightGun) : LightGun × Bool :=
  lgDrawWith Config.lgRadiusSq c x y g

/-- A pending flash consumed: in FlashPending the gun is disarmed, in Armed and Disarmed nothing changes. It is what
`poll_and_clear` (R294) and `clear_status(6)` (R296, decision D24) do to the gun. -/
def lgConsume (g : LightGun) : LightGun :=
  if g.flash then { g with flash := false, armed := false } else g

/-- `poll_and_clear()` (R294): in FlashPending it returns the remembered identifier and disarms; else it returns
nothing and changes nothing. -/
def lgPoll (g : LightGun) : LightGun × Option Config.CandId :=
  (lgConsume g, if g.flash then some g.hit else none)

end Sys2Proof.Machine
end

