-- ==== Sys2Proof/Machine/Drum.lean ====
section
/-! DEFINITION. The drum: its six fields and the status channels, with the operations both of its ports share
(48_drum_io.md R270 to R275), and the I/O space that RDF and WRF reach (20_memory.md R73, R74). -/

namespace Sys2Proof.Machine

/-- One field of the drum (10_state.md R32). -/
def drumField (d : Drum) : Field → Store
  | .lri => d.lri
  | .gfi => d.gfi
  | .xtl => d.xtl
  | .sdf => d.sdf
  | .log => d.log
  | .tmp => d.tmp

/-- The drum with one field replaced. -/
def setDrumField (d : Drum) (f : Field) (st : Store) : Drum :=
  match f with
  | .lri => { d with lri := st }
  | .gfi => { d with gfi := st }
  | .xtl => { d with xtl := st }
  | .sdf => { d with sdf := st }
  | .log => { d with log := st }
  | .tmp => { d with tmp := st }

/-- Every field of the drum is in canonical form. -/
def Drum.wf (d : Drum) : Bool :=
  storeWf Config.fieldSize d.lri && storeWf Config.fieldSize d.gfi && storeWf Config.fieldSize d.xtl &&
    storeWf Config.fieldSize d.sdf && storeWf Config.fieldSize d.log && storeWf Config.fieldSize d.tmp

/-- `read_field(f, a)`: "pure read, does not affect any channel" (R273). -/
def readField (f : Field) (a : Int) (s : State) : Word :=
  storeRead (drumField s.drum f) (fieldSlot a)

/-- `write_field(f, a, w)`: the word is stored and "as a side effect, sets that field's status channel to true" (R272);
one atomic transition. -/
def writeField (f : Field) (a : Int) (w : Word) (s : State) : State :=
  { s with
    drum := setDrumField s.drum f (storeWrite (drumField s.drum f) (fieldSlot a) w)
    chan := setChanFlag s.chan f true }

/-- The channel flags after `clear_status(c)`: a field's own flag is cleared (R275). -/
def clearChan (c : Channel) (ch : Channels) : Channels :=
  match c with
  | .field f => setChanFlag ch f false
  | .lg => ch

/-- The light gun after `clear_status(c)`: channel 6 consumes a pending flash without returning its identifier
(49_light_gun.md R296, decision D24). -/
def clearGun (c : Channel) (g : LightGun) : LightGun :=
  match c with
  | .field _ => g
  | .lg => lgConsume g

/-- `clear_status(c)` (R275): the field's words are not changed. -/
def clearStatus (c : Channel) (s : State) : State :=
  { s with chan := clearChan c s.chan, lg := clearGun c s.lg }

/-- The channels in ascending order, 0 to 6 (R271). -/
def allChannels : List Channel :=
  [.field .lri, .field .gfi, .field .xtl, .field .sdf, .field .log, .field .tmp, .lg]

/-- The number of a drum field (10_state.md R32). -/
def fieldNumber : Field → Nat
  | .lri => 0
  | .gfi => 1
  | .xtl => 2
  | .sdf => 3
  | .log => 4
  | .tmp => 5

/-- The number of a channel (R271). -/
def channelNumber : Channel → Nat
  | .field f => fieldNumber f
  | .lg => 6

/-- A write of `v` to STATUS, over the channels of a list in order: each channel whose bit of `v` is 1 is cleared. -/
def clearChannels (v : Word) : List Channel → State → State
  | [], s => s
  | c :: cs, s => clearChannels v cs (if v.getLsbD (channelNumber c) then clearStatus c s else s)

/-- A write to STATUS (R280, decision D20): for each channel from 0 to 6, `clear_status` where the bit of the written
word is 1. No write can set a channel. -/
def writeStatus (v : Word) (s : State) : State :=
  clearChannels v allChannels s

/-- `IoRead(IOA)` (20_memory.md R73); `none` stands for the token Unmapped. No state changes. -/
def ioRead (ioa : Addr) (s : State) : Option Word :=
  match ioDecode ioa with
  | .field f o => some (readField f (o : Int) s)
  | .status => some (statusWord s)
  | .clock => some (clockWord s)
  | .unmapped => none

/-- `IoWrite(IOA, v)` (20_memory.md R74); `none` stands for the token Unmapped, with nothing written. A write to CLOCK
changes nothing (R281). -/
def ioWrite (ioa : Addr) (v : Word) (s : State) : Option State :=
  match ioDecode ioa with
  | .field f o => some (writeField f (o : Int) v s)
  | .status => some (writeStatus v s)
  | .clock => some s
  | .unmapped => none

end Sys2Proof.Machine
end

