-- ==== Sys2Proof/Machine/InOut.lean ====
section
/-! DEFINITION. The I/O class: RDF, WRF, LDX, CLX (46_io_class.md). -/

namespace Sys2Proof.Machine

/-- RDF: `acc <- IoRead(IOA)`; an unmapped address halts the core with the accumulator unchanged (R250, decision
D22). -/
def execRdf (xs : IndexSel) (a : Addr) (s : State) : Host.Outcome State Fault Refusal :=
  match ioRead (ioAddr xs a s) s with
  | some v => .next (advance (setAcc v s))
  | none => .next (implicitHalt s)

/-- WRF: `IoWrite(IOA, acc)`; an unmapped address halts the core with nothing written (R251, decision D22). -/
def execWrf (xs : IndexSel) (a : Addr) (s : State) : Host.Outcome State Fault Refusal :=
  match ioWrite (ioAddr xs a s) s.acc s with
  | some t => .next (advance t)
  | none => .next (implicitHalt s)

/-- LDX: the right half of the word at the unindexed address becomes the register's pattern (R252, decision D23). With
no register named the word is an unrecognised combination and halts (R110, R261). -/
def execLdx (xs : IndexSel) (b : Bank) (a : Addr) (s : State) : Host.Outcome State Fault Refusal :=
  match ixRead? xs s with
  | none => .next (implicitHalt s)
  | some _ => .next (advance (setIx xs (rightHalf (memRead b (plainAddr b a : Int) s)) s))

/-- CLX: `ix[I.xs - 1] <- 0x0000` (R253, decision D23). With no register named the word is an unrecognised combination
and halts (R110, R261). -/
def execClx (xs : IndexSel) (s : State) : Host.Outcome State Fault Refusal :=
  match ixRead? xs s with
  | none => .next (implicitHalt s)
  | some _ => .next (advance (setIx xs 0x0000#16 s))

end Sys2Proof.Machine
end

