-- ==== Sys2Proof/Machine/Shift.lean ====
section
/-! DEFINITION. The shift class: SHLB, SHLL, SHLR, SHRB, SHRL, SHRR (44_shift.md R230 to R236). The count is the address field; a
half the instruction does not name is unchanged. -/

namespace Sys2Proof.Machine

/-- SHLB, both halves left (R231). -/
def execShlb (n : Addr) (s : State) : Host.Outcome State Fault Refusal :=
  .next (advance (setAcc (join (shl16 (leftHalf s.acc) (shiftCount n)) (shl16 (rightHalf s.acc) (shiftCount n))) s))

/-- SHLL, the left half left (R232). -/
def execShll (n : Addr) (s : State) : Host.Outcome State Fault Refusal :=
  .next (advance (setAcc (join (shl16 (leftHalf s.acc) (shiftCount n)) (rightHalf s.acc)) s))

/-- SHLR, the right half left (R233). -/
def execShlr (n : Addr) (s : State) : Host.Outcome State Fault Refusal :=
  .next (advance (setAcc (join (leftHalf s.acc) (shl16 (rightHalf s.acc) (shiftCount n))) s))

/-- SHRB, both halves right (R234). -/
def execShrb (n : Addr) (s : State) : Host.Outcome State Fault Refusal :=
  .next (advance (setAcc (join (shr16 (leftHalf s.acc) (shiftCount n)) (shr16 (rightHalf s.acc) (shiftCount n))) s))

/-- SHRL, the left half right (R235). -/
def execShrl (n : Addr) (s : State) : Host.Outcome State Fault Refusal :=
  .next (advance (setAcc (join (shr16 (leftHalf s.acc) (shiftCount n)) (rightHalf s.acc)) s))

/-- SHRR, the right half right (R236). -/
def execShrr (n : Addr) (s : State) : Host.Outcome State Fault Refusal :=
  .next (advance (setAcc (join (leftHalf s.acc) (shr16 (rightHalf s.acc) (shiftCount n))) s))

end Sys2Proof.Machine
end

