-- ==== Sys2Proof/Machine/Store.lean ====
section
/-! DEFINITION. The store class: STO, STL, STR (43_store.md). All three are of form M and change one slot of one bank and the
program counter. -/

namespace Sys2Proof.Machine

/-- A word of the operand's slot replaced: the store every instruction of the class makes. -/
def storeOperand (xs : IndexSel) (b : Bank) (a : Addr) (v : Word) (s : State) : State :=
  advance (memWrite b (effAddr xs b a s : Int) v s)

/-- STO: `MemWrite((I.bank, EA), 1, acc)` (R220). -/
def execSto (xs : IndexSel) (b : Bank) (a : Addr) (s : State) : Host.Outcome State Fault Refusal :=
  .next (storeOperand xs b a s.acc s)

/-- STL: the left half of the accumulator replaces the left half of the slot, whose right half is kept (R221, decision
D13). -/
def execStl (xs : IndexSel) (b : Bank) (a : Addr) (s : State) : Host.Outcome State Fault Refusal :=
  .next (storeOperand xs b a (join (leftHalf s.acc) (rightHalf (operand xs b a s))) s)

/-- STR: the right half of the accumulator replaces the right half of the slot, whose left half is kept (R222, decision
D13). -/
def execStr (xs : IndexSel) (b : Bank) (a : Addr) (s : State) : Host.Outcome State Fault Refusal :=
  .next (storeOperand xs b a (join (leftHalf (operand xs b a s)) (rightHalf s.acc)) s)

end Sys2Proof.Machine
end

