-- ==== Sys2Proof/Machine/Dispatch.lean ====
section
/-! DEFINITION. The dispatch of 41_cpu_cycle.md R190: one arm per instruction, each one call of its meaning. -/

namespace Sys2Proof.Machine

open Sys2Proof

def exec (i : Instr) (s : State) : Host.Outcome State Fault Refusal :=
  match i with
  | .hlt => Sys2Proof.Machine.execHlt s
  | .lda xs b a => Sys2Proof.Machine.execLda xs b a s
  | .add xs b a => Sys2Proof.Machine.execAdd xs b a s
  | .sub xs b a => Sys2Proof.Machine.execSub xs b a s
  | .mul xs b a => Sys2Proof.Machine.execMul xs b a s
  | .sto xs b a => Sys2Proof.Machine.execSto xs b a s
  | .stl xs b a => Sys2Proof.Machine.execStl xs b a s
  | .str xs b a => Sys2Proof.Machine.execStr xs b a s
  | .shlb n => Sys2Proof.Machine.execShlb n s
  | .shll n => Sys2Proof.Machine.execShll n s
  | .shlr n => Sys2Proof.Machine.execShlr n s
  | .shrb n => Sys2Proof.Machine.execShrb n s
  | .shrl n => Sys2Proof.Machine.execShrl n s
  | .shrr n => Sys2Proof.Machine.execShrr n s
  | .jmp xs b a => Sys2Proof.Machine.execJmp xs b a s
  | .bnz xs b a => Sys2Proof.Machine.execBnz xs b a s
  | .bze xs b a => Sys2Proof.Machine.execBze xs b a s
  | .tix xs b a => Sys2Proof.Machine.execTix xs b a s
  | .jsr xs b a => Sys2Proof.Machine.execJsr xs b a s
  | .ret xs b a => Sys2Proof.Machine.execRet xs b a s
  | .rdf xs a => Sys2Proof.Machine.execRdf xs a s
  | .wrf xs a => Sys2Proof.Machine.execWrf xs a s
  | .ldx xs b a => Sys2Proof.Machine.execLdx xs b a s
  | .clx xs => Sys2Proof.Machine.execClx xs s

end Sys2Proof.Machine
end

