-- ==== Sys2Proof/Machine/Cycle.lean ====
section
/-! DEFINITION. The fetch-decode-execute cycle (41_cpu_cycle.md R186). -/

namespace Sys2Proof.Machine

/-- The end of a step: "Instruction counter increments each step", the step that halts included (R28, R186;
log entry 15). -/
def countStep : Host.Outcome State Fault Refusal → Host.Outcome State Fault Refusal
  | .next s => .next (countUp s)
  | .fault r => .fault r
  | .refused r => .refused r

/-- `step()` (R186): "a no-op (not an error)" in the Halted state; in the Running state it fetches the word at
`(pc_bank, pc)`, decodes it, executes it and counts it. A word the opcode map does not name halts the core (R190,
R261). -/
def cycle (s : State) : Host.Outcome State Fault Refusal :=
  if s.running then
    match decode (fetchWord s) with
    | .instr i => countStep (exec i s)
    | .unrecognised _ _ => countStep (execUnrecognised s)
  else .next s

end Sys2Proof.Machine
end

