-- ==== Sys2Proof/Machine/Step.lean ====
section
/-! DEFINITION. The step of the machine, and the placing of one word where the next step fetches. -/

namespace Sys2Proof.Machine

/-- One `step()` of the CPU (41_cpu_cycle.md R186). -/
def step (s : State) : Host.Outcome State Fault Refusal :=
  cycle s

/-- The state in which the next step fetches and runs the word `w`: the word in the slot at `(pc_bank, pc)` and the
core Running, since a Halted core runs nothing (R186; log entry 3). -/
def State.withFetchWord (s : State) (nbits w : Nat) : State :=
  placeFetchWord (BitVec.ofNat 32 (w % 2 ^ nbits)) s

end Sys2Proof.Machine
end

