-- ==== Sys2Proof/Machine/HostPort.lean ====
section
/-! DEFINITION. The environment of the machine (00_scope.md R6): the operations of the operator, the clock, the device
writer, the trigger and the scan routine. "The environment agents may act between any two CPU steps, in any order, any
number of times" (R6); each operation is one atomic transition of the whole state, and the transitions of a run form one
total order (20_memory.md R80), so a run of the whole machine is a list of operations. -/

namespace Sys2Proof.Machine

/-! ## Operator -/

/-- Words written one after another from offset `a` of a bank, wrapping at its end (R181). -/
def loadWords (b : Bank) : List Word → Int → State → State
  | [], _, s => s
  | w :: ws, a, s => loadWords b ws (a + 1) (memWrite b a w s)

/-- `load_program(words, start_address, bank)` on a Halted core (R181): the words are written, then
`pc <- start_address mod 2^15` and `pc_bank <- bank`. -/
def loadProgram (words : List Word) (start : Nat) (b : Bank) (s : State) : State :=
  branchTo b start (loadWords b words (start : Int) s)

/-- `start()`: `running <- 1`; nothing else changes (R182). -/
def hostStart (s : State) : State :=
  { s with running := true }

/-- `reset()` (70_reset_and_hazards.md R341): Halted, all CPU registers zero. The banks, the drum, the channels and the
light gun are kept (R342). -/
def hostReset (s : State) : State :=
  { s with
    running := false, acc := 0x00000000#32, ix := ⟨0#16, 0#16, 0#16, 0#16⟩, pc := 0#15, pcBank := .bank1
    rtc := 0#16, icount := 0 }

/-! ## Clock -/

/-- `tick(n)`: the arrival of `n` pulses of the 32 Hz input, `rtc <- (rtc + n) mod 2^16`; nothing else changes
(60_exceptions.md R318, decision D32). -/
def tick (n : Nat) (s : State) : State :=
  { s with rtc := s.rtc + BitVec.ofNat 16 n }

/-- `floor(elapsed_seconds * 32)`, the pulses of an elapsed time at the 32 Hz of 00_scope.md R2 (R318); the fraction is dropped at each call (R319). -/
def ticksOf (elapsed : Rat) : Nat :=
  (elapsed * (Config.rtcHz : Rat)).floor.toNat

/-! ## Identifiers on the host port -/

/-- The drum field a 3-bit identifier names; 6 and 7 name nothing (48_drum_io.md R278, decision D36; DESIGN
CHOICE, log entry 17). -/
def fieldOfId (f : BitVec 3) : Option Field :=
  match f.toNat with
  | 0 => some .lri
  | 1 => some .gfi
  | 2 => some .xtl
  | 3 => some .sdf
  | 4 => some .log
  | 5 => some .tmp
  | _ => none

/-- The channel a number names; only 0 to 6 name one (48_drum_io.md R271, R278). -/
def channelOfNumber (c : Nat) : Option Channel :=
  match c with
  | 0 => some (.field .lri)
  | 1 => some (.field .gfi)
  | 2 => some (.field .xtl)
  | 3 => some (.field .sdf)
  | 4 => some (.field .log)
  | 5 => some (.field .tmp)
  | 6 => some .lg
  | _ => none

/-! ## The operations -/

/-- The environment's operations (R6; the harness pair is R321, decision D39; log entries 13, 17). -/
inductive HostOp where
  | loadProgram (words : List Word) (start : Nat) (bank : Bank)
  | start
  | reset
  | tick (n : Nat)
  | tickRealTimeClock (elapsed : Rat)
  | writeField (field : BitVec 3) (address : Int) (word : Word)
  | readField (field : BitVec 3) (address : Int)
  | checkStatus (channel : Nat)
  | clearStatus (channel : Nat)
  | arm (x y : Config.Coord)
  | drawEvent (candidate : Config.CandId) (x y : Config.Coord)
  | pollAndClear
  | memRead (bank : Bank) (address : Int)
  | memWrite (bank : Bank) (address : Int) (word : Word)
deriving DecidableEq, Repr

/-- What an operation returns to its caller. -/
inductive HostResult where
  /-- The operation is done; there is nothing to return. -/
  | done
  /-- A word read. -/
  | word (w : Word)
  /-- A flag: of `check_status`, of `draw_event`. -/
  | flag (v : Bool)
  /-- What `poll_and_clear` returns. -/
  | candidate (c : Option Config.CandId)
  /-- `UnknownField`: a return value to the host and no CPU exception (48_drum_io.md R279). -/
  | unknownField
  /-- The spec gives the call no meaning (93_implementation_defined.md U5, U6); nothing changed (DESIGN CHOICE, log
  entries 8, 9). -/
  | noMeaning
deriving DecidableEq, Repr

/-- One operation of the environment: the state after it and what it returns. -/
def hostAct (o : HostOp) (s : State) : State × HostResult :=
  match o with
  | .loadProgram words start b => if s.running then (s, .noMeaning) else (loadProgram words start b s, .done)
  | .start => (hostStart s, .done)
  | .reset => (hostReset s, .done)
  | .tick n => (tick n s, .done)
  | .tickRealTimeClock e => if e < 0 then (s, .noMeaning) else (tick (ticksOf e) s, .done)
  | .writeField f a w =>
    match fieldOfId f with
    | some f => (writeField f a w s, .done)
    | none => (s, .unknownField)
  | .readField f a =>
    match fieldOfId f with
    | some f => (s, .word (readField f a s))
    | none => (s, .unknownField)
  | .checkStatus c =>
    match channelOfNumber c with
    | some c => (s, .flag (checkStatus c s))
    | none => (s, .unknownField)
  | .clearStatus c =>
    match channelOfNumber c with
    | some c => (clearStatus c s, .done)
    | none => (s, .unknownField)
  | .arm x y => ({ s with lg := lgArm x y s.lg }, .done)
  | .drawEvent c x y => ({ s with lg := (lgDraw c x y s.lg).1 }, .flag (lgDraw c x y s.lg).2)
  | .pollAndClear => ({ s with lg := (lgPoll s.lg).1 }, .candidate (lgPoll s.lg).2)
  | .memRead b a => (s, .word (memRead b a s))
  | .memWrite b a w => (memWrite b a w s, .done)

/-! ## Read accessors -/

/-- What the host's read accessors show (10_state.md R37, 60_exceptions.md R321). -/
structure CoreView where
  acc : Word
  ix : IxRegs
  pc : Addr
  pcBank : Bank
  rtc : BitVec 16
  running : Bool
  icount : Nat
deriving DecidableEq, Repr

/-- The read accessors: they return current values and change nothing (R321). -/
def coreView (s : State) : CoreView :=
  ⟨s.acc, s.ix, s.pc, s.pcBank, s.rtc, s.running, s.icount⟩

/-! ## Runs -/

/-- `run(max_steps)` (41_cpu_cycle.md R189): steps while Running and under the limit; the number of steps is returned
(decision D37). -/
def runSteps : Nat → State → Host.Outcome (State × Nat) Fault Refusal
  | 0, s => .next (s, 0)
  | k + 1, s =>
    if s.running then
      match step s with
      | .next t =>
        match runSteps k t with
        | .next r => .next (r.1, r.2 + 1)
        | .fault r => .fault r
        | .refused r => .refused r
      | .fault r => .fault r
      | .refused r => .refused r
    else .next (s, 0)

/-- One atomic operation of any agent: the CPU's `step()` or one of the environment's (R6). -/
inductive Op where
  | cpu
  | host (o : HostOp)
deriving DecidableEq, Repr

/-- One operation as a transition of the whole state (20_memory.md R80). -/
def act (o : Op) (s : State) : Host.Outcome State Fault Refusal :=
  match o with
  | .cpu => step s
  | .host h => .next (hostAct h s).1

/-- A run of the whole machine: operations in one total order (20_memory.md R80). -/
def runOps : List Op → State → Host.Outcome State Fault Refusal
  | [], s => .next s
  | o :: os, s =>
    match act o s with
    | .next t => runOps os t
    | .fault r => .fault r
    | .refused r => .refused r

end Sys2Proof.Machine
end

