-- ==== Sys2Proof/Safety.lean ====
section
/-! DEFINITION. What holds of the machine in every run, and how the ways to halt are told apart. -/

namespace Sys2Proof.Machine

/-! ## Vocabulary of statements -/

/-- A rational rounded toward zero to a multiple of 1/32768, the rounding of 40_word_arithmetic.md R149, R153 and
42_arith.md R211. -/
def truncUnit (q : Rat) : Rat :=
  if 0 ≤ q then ((q * 32768).floor : Rat) / 32768 else -(((-q * 32768).floor : Rat) / 32768)

/-- A row of the opcode map (30_encoding.md R106): every word whose bits 30:24 are those of `m` decodes to the
instruction `f`, given the register its bits 23:22 name, the bank its bit 15 names and its bits 14:0 (R102, R105). -/
def rowDecodes (m : Word) (f : IndexSel → Bank → Addr → Instr) : Prop :=
  ∀ w : Word, w &&& 0x7F000000#32 = m →
    decode w = .instr (f (indexSelOfBits (w.extractLsb' 22 2)) (bankOfBit (w.extractLsb' 15 1)) (w.extractLsb' 0 15))

/-- A branch is taken: always by JMP, JSR and RET, on the accumulator's test by BNZ and BZE, on the decremented register
by TIX (45_branch.md; 10_state.md R25). -/
def takesBranch (i : Instr) (s : State) : Bool :=
  match i with
  | .jmp _ _ _ | .jsr _ _ _ | .ret _ _ _ => true
  | .bnz _ _ _ => !isZeroWord s.acc
  | .bze _ _ _ => isZeroWord s.acc
  | .tix xs _ _ =>
    match ixRead? xs s with
    | none => false
    | some old => decide (0 < (old - 1#16).toInt)
  | .hlt | .lda _ _ _ | .add _ _ _ | .sub _ _ _ | .mul _ _ _ | .sto _ _ _ | .stl _ _ _ | .str _ _ _ | .shlb _
  | .shll _ | .shlr _ | .shrb _ | .shrl _ | .shrr _ | .rdf _ _ | .wrf _ _ | .ldx _ _ _ | .clx _ => false

/-- The instructions that write a word of a memory bank (43_store.md; 45_branch.md R244). -/
def storesInBank : Instr → Bool
  | .sto _ _ _ | .stl _ _ _ | .str _ _ _ | .jsr _ _ _ => true
  | .hlt | .lda _ _ _ | .add _ _ _ | .sub _ _ _ | .mul _ _ _ | .shlb _ | .shll _ | .shlr _ | .shrb _ | .shrl _
  | .shrr _ | .jmp _ _ _ | .bnz _ _ _ | .bze _ _ _ | .tix _ _ _ | .ret _ _ _ | .rdf _ _ | .wrf _ _ | .ldx _ _ _
  | .clx _ => false

/-- The instruction that writes the I/O space (46_io_class.md R251). -/
def writesIo : Instr → Bool
  | .wrf _ _ => true
  | .hlt | .lda _ _ _ | .add _ _ _ | .sub _ _ _ | .mul _ _ _ | .sto _ _ _ | .stl _ _ _ | .str _ _ _ | .shlb _
  | .shll _ | .shlr _ | .shrb _ | .shrl _ | .shrr _ | .jmp _ _ _ | .bnz _ _ _ | .bze _ _ _ | .tix _ _ _
  | .jsr _ _ _ | .ret _ _ _ | .rdf _ _ | .ldx _ _ _ | .clx _ => false

/-- The instructions that write the accumulator (10_state.md R21). -/
def writesAcc : Instr → Bool
  | .lda _ _ _ | .add _ _ _ | .sub _ _ _ | .mul _ _ _ | .shlb _ | .shll _ | .shlr _ | .shrb _ | .shrl _
  | .shrr _ | .rdf _ _ => true
  | .hlt | .sto _ _ _ | .stl _ _ _ | .str _ _ _ | .jmp _ _ _ | .bnz _ _ _ | .bze _ _ _ | .tix _ _ _
  | .jsr _ _ _ | .ret _ _ _ | .wrf _ _ | .ldx _ _ _ | .clx _ => false

/-- The index register an instruction writes, by its select; `none` for an instruction that writes none (10_state.md
R22). -/
def indexWritten : Instr → IndexSel
  | .tix xs _ _ | .ldx xs _ _ | .clx xs => xs
  | .hlt | .lda _ _ _ | .add _ _ _ | .sub _ _ _ | .mul _ _ _ | .sto _ _ _ | .stl _ _ _ | .str _ _ _ | .shlb _
  | .shll _ | .shlr _ | .shrb _ | .shrl _ | .shrr _ | .jmp _ _ _ | .bnz _ _ _ | .bze _ _ _ | .jsr _ _ _
  | .ret _ _ _ | .rdf _ _ | .wrf _ _ => .none

/-! ## The invariant -/

/-- The light gun is in one of its three states: the pair `armed = 0, flash = 1` is none of them (10_state.md R35). -/
def LightGun.legal (g : LightGun) : Bool :=
  !g.flash || g.armed

/-- The invariant of the machine: both banks and every drum field are in canonical form, the light gun is in one of its
three states (R35), and `ix[3]`, which nothing can name, holds zero (10_state.md R23). -/
def State.inv (s : State) : Bool :=
  s.mem.wf && s.drum.wf && s.lg.legal && decide (s.ix.ix3 = 0x0000#16)

/-! ## How a run ends -/

/-- Why a step halts the core. The machine does not record it (41_cpu_cycle.md R191); it can be told from the state
before the step, and no two causes apply to one step (60_exceptions.md R313). -/
inductive HaltCause where
  /-- HLT (47_halt.md R260). -/
  | hlt
  /-- A pair of class and opcode outside the opcode map (R110, R261). -/
  | unrecognised
  /-- TIX, LDX or CLX with no register named (R110, R261). -/
  | noIndexRegister
  /-- RDF or WRF to an unmapped I/O address (R250, R251). -/
  | unmappedIo
deriving DecidableEq, Repr

/-- Why the next step of a Running core halts it; `none` if it does not. -/
def haltCause (s : State) : Option HaltCause :=
  match decode (fetchWord s) with
  | .unrecognised _ _ => some .unrecognised
  | .instr .hlt => some .hlt
  | .instr (.rdf xs a) => if ioDecode (ioAddr xs a s) = .unmapped then some .unmappedIo else none
  | .instr (.wrf xs a) => if ioDecode (ioAddr xs a s) = .unmapped then some .unmappedIo else none
  | .instr i => if i.wellFormed then none else some .noIndexRegister

/-- A step that ends a run only as its program meant: it does not halt, or it executes HLT (R191; 93 U1, U12). -/
def stepSafe (s : State) : Bool :=
  !s.running || (haltCause s == none || haltCause s == some .hlt)

end Sys2Proof.Machine
end

