-- ==== Sys2Proof/Certificates/Slice0/Obligations.lean ====
section
/-! DEFINITION. The statements for the provers, in the order of the spec's files. Where a rule is marked in the spec as
its own decision (D<n> of 92_eei_decisions.md), the docstring names the decision; where the statement rests on a
sentence the spec marks as derived, or on a choice of this model, the docstring says so. -/

open Sys2Proof Sys2Proof.Machine

/-! ## State, power-on and reset -/

/-- R340 (decisions D28, D29): the values at power-on, for every contents `mem_init` of the banks. The value of `lg.hit`,
which the spec leaves unspecified (R34), is not stated. -/
def Obligations.PowerOnIsAllZero : Prop :=
  ∀ m : Memory,
    let s := State.powerOn m
    s.acc = 0x00000000#32 ∧ s.ix = ⟨0#16, 0#16, 0#16, 0#16⟩ ∧ s.pc = 0#15 ∧ s.pcBank = .bank1 ∧ s.rtc = 0#16 ∧
      s.icount = 0 ∧ s.running = false ∧ (∀ b a, memRead b a s = storeRead (bankOf m b) (slotOf b a)) ∧
      (∀ f a, readField f a s = 0x00000000#32) ∧ (∀ c, checkStatus c s = false) ∧ s.lg.armed = false ∧
      s.lg.tx = 0 ∧ s.lg.ty = 0

/-- The model's invariant (canonical stores, R23, R35) holds at power-on for every well-formed `mem_init`, and at
`State.reset`, whose banks hold the default `mem_init` (log entry 2: the model's choice among the defaults D29 names). -/
def Obligations.PowerOnMeetsInvariant : Prop :=
  (∀ m : Memory, m.wf = true → (State.powerOn m).inv = true) ∧ State.reset.inv = true

/-- R341, R342 (decision D28): `reset()` zeroes the CPU core and keeps the banks, the drum, the channels and the light
gun. -/
def Obligations.ResetKeepsMemoryAndDevices : Prop :=
  ∀ s : State, ∃ t, hostAct .reset s = (t, .done) ∧
    t.running = false ∧ t.acc = 0x00000000#32 ∧ t.ix = ⟨0#16, 0#16, 0#16, 0#16⟩ ∧ t.pc = 0#15 ∧ t.pcBank = .bank1 ∧
    t.rtc = 0#16 ∧ t.icount = 0 ∧ (∀ b a, memRead b a t = memRead b a s) ∧ (∀ f a, readField f a t = readField f a s) ∧
    (∀ c, checkStatus c t = checkStatus c s) ∧ t.lg = s.lg

/-! ## Memory and addresses -/

/-- R62: every integer offset wraps modulo the bank's size, for reads and for writes; a write changes one slot, and every
other slot of both banks reads as before (R63). The premise is the canonical form of the memory. -/
def Obligations.MemoryReadsWhatWasWritten : Prop :=
  (∀ b, bankSize b = match b with | .bank1 => 65536 | .bank2 => 4096) ∧
  (∀ (s : State) (b b' : Bank) (a a' : Int) (v : Word), s.mem.wf = true →
    memRead b' a' (memWrite b a v s) =
      if b' = b ∧ a' % (bankSize b : Int) = a % (bankSize b : Int) then v else memRead b' a' s) ∧
  (∀ (s : State) (b : Bank) (a k : Int), memRead b (a + k * bankSize b) s = memRead b a s) ∧
  (∀ (s : State) (b : Bank) (a : Int) (v : Word), ∃ m, memWrite b a v s = { s with mem := m })

/-- R184 (decision D38): the effective offset is the address plus the two's-complement value of the register
named, reduced modulo the bank's size. -/
def Obligations.EffectiveAddressWraps : Prop :=
  ∀ (b : Bank) (a : Addr) (s : State),
    (effAddr .none b a s : Int) = (a.toNat : Int) % (bankSize b : Int) ∧
    (effAddr .x0 b a s : Int) = ((a.toNat : Int) + s.ix.ix0.toInt) % (bankSize b : Int) ∧
    (effAddr .x1 b a s : Int) = ((a.toNat : Int) + s.ix.ix1.toInt) % (bankSize b : Int) ∧
    (effAddr .x2 b a s : Int) = ((a.toNat : Int) + s.ix.ix2.toInt) % (bankSize b : Int)

/-! ## Encoding -/

/-- 30_encoding.md, R106 and R108: the decoder reads every instruction back from the word the encoder writes for it, with
every operand at every value. -/
def Obligations.DecodeReadsWhatEncodeWrites : Prop :=
  ∀ i : Instr, decode (encode i) = .instr i

/-- 30_encoding.md R108, which the spec marks derived: the field view of a word and the canonical word of the fields
undo each other, up to the ignored bits. -/
def Obligations.FieldsAndCanonicalWordsAgree : Prop :=
  (∀ f : Fields, decodeFields (encodeFields f) = f) ∧
  (∀ w : Word, encodeFields (decodeFields w) = w &&& 0x7FC0FFFF#32)

/-- R103 (decision D2): bits 31 and 21:16 take no part in decoding or execution. Two words that differ only there decode
alike, and two Running states that fetch them execute the same instruction. -/
def Obligations.IgnoredBitsTakeNoPart : Prop :=
  (∀ w w' : Word, w &&& 0x7FC0FFFF#32 = w' &&& 0x7FC0FFFF#32 → decode w = decode w') ∧
  (∀ s s' : State, s.running = true → s'.running = true →
    fetchWord s &&& 0x7FC0FFFF#32 = fetchWord s' &&& 0x7FC0FFFF#32 →
    ∃ i : Instr, step s = countStep (exec i s) ∧ step s' = countStep (exec i s'))

/-- The words of a few worked examples decode to the instructions they stand for (R246, R250, R252, R261 examples). -/
def Obligations.ExampleWordsDecode : Prop :=
  decode 0x65000040#32 = .instr (.ret .none .bank1 64) ∧ decode 0x70800000#32 = .instr (.rdf .x1 0) ∧
    decode 0x72C000C9#32 = .instr (.ldx .x2 .bank1 201) ∧ decode 0x60008005#32 = .instr (.jmp .none .bank2 5) ∧
    decode 0x1F000000#32 = .unrecognised 1 15

/-! ## The arithmetic unit -/

/-- R142: splitting and joining a word undo each other, and no primitive moves anything from one half to the other. -/
def Obligations.HalvesAreIndependent : Prop :=
  (∀ w : Word, join (split w).1 (split w).2 = w) ∧ (∀ l r : Half, split (join l r) = (l, r)) ∧
  (∀ f ∈ [paddShift, psubShift, pmul], ∀ w1 w2 v1 v2 : Word,
    (leftHalf w1 = leftHalf v1 → leftHalf w2 = leftHalf v2 → leftHalf (f w1 w2) = leftHalf (f v1 v2)) ∧
    (rightHalf w1 = rightHalf v1 → rightHalf w2 = rightHalf v2 → rightHalf (f w1 w2) = rightHalf (f v1 v2))) ∧
  (∀ w v : Word, (leftHalf w = leftHalf v → leftHalf (wneg w) = leftHalf (wneg v)) ∧
    (rightHalf w = rightHalf v → rightHalf (wneg w) = rightHalf (wneg v)))

/-- R144 (decision D26): `from_fraction` saturates at both ends and else truncates the magnitude toward zero, keeping
the sign in the pattern. -/
def Obligations.FractionConversionTruncates : Prop :=
  ∀ q : Rat,
    (1 ≤ q → fromFraction q = 0x7FFF#16) ∧ (q ≤ -1 → fromFraction q = 0x8000#16) ∧
    (-1 < q → q < 1 → frac (fromFraction q) = truncUnit q ∧ (fromFraction q).msb = decide (q < 0))

/-- 40_word_arithmetic.md, R145: the two zeros have one value, and a half that is neither comes back from its value unchanged. -/
def Obligations.OnlyZeroHasTwoPatterns : Prop :=
  frac 0x0000#16 = 0 ∧ frac 0xFFFF#16 = 0 ∧ fromFraction (frac 0xFFFF#16) = 0x0000#16 ∧
  (∀ h : Half, h ≠ 0x0000#16 → h ≠ 0xFFFF#16 → fromFraction (frac h) = h) ∧
  (∀ h k : Half, frac h = frac k → h = k ∨ (isZeroHalf h = true ∧ isZeroHalf k = true))

/-- R146: negation is the bitwise complement and negates the value, with no exception. -/
def Obligations.NegationIsComplement : Prop :=
  (∀ h : Half, negate h = ~~~h ∧ frac (negate h) = -frac h ∧ negate (negate h) = h) ∧
  (∀ w : Word, wneg w = ~~~w)

/-- R147: one's-complement addition with end-around carry; it is commutative. -/
def Obligations.AdditionCarriesEndAround : Prop :=
  ∀ a b : Half,
    (add1c a b).toNat =
      (if 0x10000 ≤ a.toNat + b.toNat then a.toNat + b.toNat - 0x10000 + 1 else a.toNat + b.toNat) ∧
    add1c a b = add1c b a

/-- R148, consequences the spec derives from R147: the sum is exact when it is in range, the sum of a half and its
complement is -0, and +0 arises only from two +0. -/
def Obligations.InRangeSumIsExact : Prop :=
  ∀ a b : Half,
    (-(32767 / 32768) ≤ frac a + frac b → frac a + frac b ≤ 32767 / 32768 → frac (add1c a b) = frac a + frac b) ∧
    add1c a (negate a) = 0xFFFF#16 ∧ (add1c a b = 0x0000#16 → a = 0x0000#16 ∧ b = 0x0000#16)

/-- R149, whose values the spec derives from R143: `asr1` keeps the sign bit, copies it into bit 14, drops bit 0, and
halves the value toward zero. -/
def Obligations.HalvingRoundsTowardZero : Prop :=
  ∀ h : Half,
    frac (asr1 h) = truncUnit (frac h / 2) ∧ (asr1 h).getLsbD 15 = h.getLsbD 15 ∧
    (asr1 h).getLsbD 14 = h.getLsbD 15 ∧ ∀ i, i < 14 → (asr1 h).getLsbD i = h.getLsbD (i + 1)

/-- R153 (decision D12): the product of two halves is the exact product rounded toward zero, and its sign bit is the
exclusive-or of the sign bits, for a zero product too. -/
def Obligations.ProductRoundsTowardZero : Prop :=
  ∀ a b : Half,
    frac (mul1c a b) = truncUnit (frac a * frac b) ∧ (mul1c a b).getLsbD 15 = (a.getLsbD 15 ^^ b.getLsbD 15)

/-- R155 (decision D14): the shifts of a half are logical, and a count of 16 or more clears it. -/
def Obligations.HalfShiftsAreLogical : Prop :=
  ∀ (h : Half) (n : Nat),
    (shl16 h n).toNat = h.toNat * 2 ^ n % 65536 ∧ (shr16 h n).toNat = h.toNat / 2 ^ n ∧
    (16 ≤ n → shl16 h n = 0x0000#16 ∧ shr16 h n = 0x0000#16) ∧ shl16 h 0 = h ∧ shr16 h 0 = h

/-! ## The step -/

/-- R186: a step in the Halted state changes nothing; a step in the Running state runs the instruction that the word at
`(pc_bank, pc)` decodes to, and adds one to the instruction counter around it; a word that decodes to no instruction
halts (R190, R261). -/
def Obligations.StepRunsDecodedInstruction : Prop :=
  (∀ s : State, s.running = false → step s = .next s) ∧
  (∀ s : State, fetchWord s = memRead s.pcBank (s.pc.toNat : Int) s) ∧
  (∀ (s t : State) (i : Instr), s.running = true → decode (fetchWord s) = .instr i → exec i s = .next t →
    step s = .next { t with icount := t.icount + 1 }) ∧
  (∀ (s : State) (c : BitVec 3) (o : BitVec 4), s.running = true → decode (fetchWord s) = .unrecognised c o →
    step s = .next { s with running := false, pc := s.pc + 1#15, icount := s.icount + 1 })

/-- R310: every instruction completes; no instruction and no step can fault or be refused. -/
def Obligations.EveryInstructionCompletes : Prop :=
  (∀ (i : Instr) (s : State), ∃ t, exec i s = .next t) ∧ (∀ s : State, ∃ t, step s = .next t)

/-- R28 (decision D30): every step of a Running core adds one to the instruction counter, no Halted step does, and no
instruction reads it: a different count changes nothing else. -/
def Obligations.EveryRunningStepIsCounted : Prop :=
  State.reset.icount = 0 ∧
  (∀ s t : State, s.running = false → step s = .next t → t.icount = s.icount) ∧
  (∀ (s t : State) (n : Nat), s.running = true → step s = .next t →
    t.icount = s.icount + 1 ∧ step { s with icount := n } = .next { t with icount := n + 1 })

/-- R27: only the clock tick and `reset()` write the real-time clock, and a program reads it only by RDF at CLOCK: any
other step does the same whatever the clock holds. -/
def Obligations.OnlyTheTickMovesTheClock : Prop :=
  State.reset.rtc = 0#16 ∧
  (∀ s t : State, step s = .next t → t.rtc = s.rtc) ∧
  (∀ (o : HostOp) (s : State), (∀ n, o ≠ .tick n) → (∀ e, o ≠ .tickRealTimeClock e) → o ≠ .reset →
    (hostAct o s).1.rtc = s.rtc) ∧
  (∀ (s t : State) (v : BitVec 16), step s = .next t →
    (∀ xs a, decode (fetchWord s) = .instr (.rdf xs a) → ioAddr xs a s ≠ 0x7001#15) →
    step { s with rtc := v } = .next { t with rtc := v })

/-- R25 (decisions D3, D28): a step that takes no branch leaves the bank, and moves the program counter on by one modulo
2^15 (R26); on the host side only `load_program` and `reset()` write either; the reset value is bank 1. -/
def Obligations.OnlyBranchesLeaveTheLine : Prop :=
  (∀ s : State, (s.pc + 1#15).toNat = (s.pc.toNat + 1) % 32768) ∧
  (∀ s t : State, s.running = true → step s = .next t →
    (∀ i, decode (fetchWord s) = .instr i → takesBranch i s = false) → t.pcBank = s.pcBank ∧ t.pc = s.pc + 1#15) ∧
  (∀ (o : HostOp) (s : State), (∀ w a b, o ≠ .loadProgram w a b) → o ≠ .reset →
    (hostAct o s).1.pcBank = s.pcBank ∧ (hostAct o s).1.pc = s.pc) ∧
  State.reset.pcBank = .bank1

/-- 20_memory.md R83: a store is seen by the very next fetch of its slot. A STO into the slot after its own makes the
stored word the one the next step fetches. -/
def Obligations.StoredWordIsFetchedNext : Prop :=
  ∀ (xs : IndexSel) (b : Bank) (a : Addr) (s : State), s.mem.wf = true → s.running = true → b = s.pcBank →
    decode (fetchWord s) = .instr (.sto xs b a) → effAddr xs b a s = slotOf b ((s.pc + 1#15).toNat : Int) →
    ∃ t, step s = .next t ∧ t.running = true ∧ fetchWord t = s.acc

/-- 10_state.md R31, 20_memory.md R60: of the instructions only STO, STL, STR and JSR change a word of a bank, and only WRF changes a word of
the drum, a channel or the light gun. -/
def Obligations.OnlyStoresChangeMemory : Prop :=
  ∀ (i : Instr) (s t : State), exec i s = .next t →
    (storesInBank i = false → ∀ b a, memRead b a t = memRead b a s) ∧
    (writesIo i = false →
      (∀ f a, readField f a t = readField f a s) ∧ (∀ c, checkStatus c t = checkStatus c s) ∧ t.lg = s.lg)

/-- 10_state.md R21, R22: of the instructions only LDA, ADD, SUB, MUL, the six shifts and RDF write the accumulator, and only TIX,
LDX and CLX write an index register, and then only the one they name; none writes `ix[3]` (R23, decision D9). -/
def Obligations.RegistersAreWrittenByTheirInstructions : Prop :=
  ∀ (i : Instr) (s t : State), exec i s = .next t →
    (writesAcc i = false → t.acc = s.acc) ∧
    (∀ xs : IndexSel, xs ≠ indexWritten i → ixRead? xs t = ixRead? xs s) ∧ t.ix.ix3 = s.ix.ix3

/-- R29 (decision D27): a core starts by `start()` and by nothing else; it stops in a step that executes HLT, an
unrecognised combination or an unmapped I/O access, by `reset()`, and by nothing else; at reset it is Halted. -/
def Obligations.HaltingHasOnlyItsCauses : Prop :=
  State.reset.running = false ∧
  (∀ s : State, (hostAct .start s).1.running = true ∧ (hostAct .reset s).1.running = false) ∧
  (∀ s t : State, step s = .next t → s.running = false → t.running = false) ∧
  (∀ s t : State, step s = .next t → s.running = true → (t.running = false ↔ (haltCause s).isSome = true)) ∧
  (∀ (o : HostOp) (s : State), s.running = false → (hostAct o s).1.running = true → o = .start) ∧
  (∀ (o : HostOp) (s : State), s.running = true → (hostAct o s).1.running = false → o = .reset)

/-- Every step keeps the model's invariant: the banks and the drum fields stay in canonical form, the light gun stays in
one of its three states (R35) and `ix[3]` stays zero (R23). -/
def Obligations.EveryStepKeepsInvariant : Prop :=
  ∀ s t : State, s.inv = true → step s = .next t → t.inv = true

/-- Every operation of every agent keeps the model's invariant, from every state that meets it; so in every run of the
whole machine from power-on, whatever the operations and their order (R6, R80) and whatever the contents of the banks, no
operation fails and the invariant holds: `ix[3]` is zero (R23) and the light gun is in one of its three states (R35).
Three points are the model's own choice: the environment acts by functions outside `step` (log entry 13); `load_program`
on a Running core and a clock tick of a negative time, which the spec gives no meaning (93_implementation_defined.md U5,
U6), leave the state as it was (log entries 8 and 9). -/
def Obligations.EveryRunOfAllAgentsKeepsInvariant : Prop :=
  (∀ (o : Op) (s t : State), s.inv = true → act o s = .next t → t.inv = true) ∧
  (∀ (m : Memory) (os : List Op), m.wf = true →
    ∃ t, runOps os (State.powerOn m) = .next t ∧ t.inv = true ∧ t.ix.ix3 = 0x0000#16 ∧
      ¬(t.lg.armed = false ∧ t.lg.flash = true))

/-- R189 (decision D37): `run(max_steps)` takes steps while the core runs and the limit is not reached, and returns how
many it took. -/
def Obligations.RunStepsWhileRunning : Prop :=
  ∀ (k : Nat) (s : State), ∃ t n, runSteps k s = .next (t, n) ∧ n ≤ k ∧ Sys2Proof.core.run n s = .next t ∧
    (n < k → t.running = false) ∧
    (∀ m < n, ∃ u : State, Sys2Proof.core.run m s = .next u ∧ u.running = true)

/-! ## Arithmetic, compare/subtract and multiply classes -/

/-- R210 (decision D10): LDA copies the operand, and changes nothing else but the program counter. -/
def Obligations.LoadCopiesTheOperand : Prop :=
  rowDecodes 0x10000000#32 .lda ∧
  ∀ (xs : IndexSel) (b : Bank) (a : Addr) (s : State),
    exec (.lda xs b a) s = .next { s with acc := memRead b (effAddr xs b a s : Int) s, pc := s.pc + 1#15 }

/-- R211: ADD adds each half with end-around carry and shifts each sum right one place; where a sum is in range, the
half becomes half of it, rounded toward zero. -/
def Obligations.AddHalvesTheSum : Prop :=
  rowDecodes 0x11000000#32 .add ∧
  ∀ (xs : IndexSel) (b : Bank) (a : Addr) (s : State), ∃ t, exec (.add xs b a) s = .next t ∧
    t = { s with acc := t.acc, pc := s.pc + 1#15 } ∧
    ∀ m, m = memRead b (effAddr xs b a s : Int) s →
      leftHalf t.acc = asr1 (add1c (leftHalf s.acc) (leftHalf m)) ∧
      rightHalf t.acc = asr1 (add1c (rightHalf s.acc) (rightHalf m)) ∧
      (-(32767 / 32768) ≤ frac (leftHalf s.acc) + frac (leftHalf m) →
        frac (leftHalf s.acc) + frac (leftHalf m) ≤ 32767 / 32768 →
        frac (leftHalf t.acc) = truncUnit ((frac (leftHalf s.acc) + frac (leftHalf m)) / 2)) ∧
      (-(32767 / 32768) ≤ frac (rightHalf s.acc) + frac (rightHalf m) →
        frac (rightHalf s.acc) + frac (rightHalf m) ≤ 32767 / 32768 →
        frac (rightHalf t.acc) = truncUnit ((frac (rightHalf s.acc) + frac (rightHalf m)) / 2))

/-- R212 (decision D11): SUB adds the complement of the operand with ADD's adder and shift; equal operands give -0 in
both halves. -/
def Obligations.SubtractAddsTheComplement : Prop :=
  rowDecodes 0x20000000#32 .sub ∧
  ∀ (xs : IndexSel) (b : Bank) (a : Addr) (s : State),
    exec (.sub xs b a) s =
      .next { s with acc := paddShift s.acc (~~~(memRead b (effAddr xs b a s : Int) s)), pc := s.pc + 1#15 } ∧
    (memRead b (effAddr xs b a s : Int) s = s.acc →
      exec (.sub xs b a) s = .next { s with acc := 0xFFFFFFFF#32, pc := s.pc + 1#15 })

/-- R213 (decision D12): MUL multiplies the halves in parallel, each product rounded toward zero with the exclusive-or of
the signs. -/
def Obligations.MultiplyRoundsEachHalf : Prop :=
  rowDecodes 0x30000000#32 .mul ∧
  ∀ (xs : IndexSel) (b : Bank) (a : Addr) (s : State), ∃ t, exec (.mul xs b a) s = .next t ∧
    t = { s with acc := t.acc, pc := s.pc + 1#15 } ∧
    ∀ m, m = memRead b (effAddr xs b a s : Int) s →
      frac (leftHalf t.acc) = truncUnit (frac (leftHalf s.acc) * frac (leftHalf m)) ∧
      frac (rightHalf t.acc) = truncUnit (frac (rightHalf s.acc) * frac (rightHalf m)) ∧
      (leftHalf t.acc).getLsbD 15 = ((leftHalf s.acc).getLsbD 15 ^^ (leftHalf m).getLsbD 15) ∧
      (rightHalf t.acc).getLsbD 15 = ((rightHalf s.acc).getLsbD 15 ^^ (rightHalf m).getLsbD 15)

/-! ## Store class -/

/-- R220: STO copies the accumulator into the slot at the effective address; every other slot of both banks reads as
before. -/
def Obligations.StoreWritesOneSlot : Prop :=
  rowDecodes 0x40000000#32 .sto ∧
  ∀ (xs : IndexSel) (b : Bank) (a : Addr) (s : State), s.mem.wf = true →
    ∃ t, exec (.sto xs b a) s = .next t ∧ t = { s with mem := t.mem, pc := s.pc + 1#15 } ∧
      ∀ b' x, memRead b' x t = if b' = b ∧ slotOf b' x = effAddr xs b a s then s.acc else memRead b' x s

/-- R221, R222 (decision D13): STL and STR replace the same-named half of the slot and keep its other half; every other
slot reads as before. -/
def Obligations.HalfStoresKeepTheOtherHalf : Prop :=
  rowDecodes 0x41000000#32 .stl ∧ rowDecodes 0x42000000#32 .str ∧
  ∀ (xs : IndexSel) (b : Bank) (a : Addr) (s : State), s.mem.wf = true →
    (∃ t, exec (.stl xs b a) s = .next t ∧ t = { s with mem := t.mem, pc := s.pc + 1#15 } ∧
      ∀ b' x, memRead b' x t =
        if b' = b ∧ slotOf b' x = effAddr xs b a s then join (leftHalf s.acc) (rightHalf (memRead b' x s))
        else memRead b' x s) ∧
    (∃ t, exec (.str xs b a) s = .next t ∧ t = { s with mem := t.mem, pc := s.pc + 1#15 } ∧
      ∀ b' x, memRead b' x t =
        if b' = b ∧ slotOf b' x = effAddr xs b a s then join (leftHalf (memRead b' x s)) (rightHalf s.acc)
        else memRead b' x s)

/-! ## Shift class -/

/-- R231, R232, R233 (decision D14): SHLB, SHLL and SHLR shift the halves they name left by the address field; bits leaving
a half are lost and the other half is unchanged. -/
def Obligations.LeftShiftsShiftTheNamedHalves : Prop :=
  rowDecodes 0x50000000#32 (fun _ _ n => .shlb n) ∧ rowDecodes 0x51000000#32 (fun _ _ n => .shll n) ∧
  rowDecodes 0x52000000#32 (fun _ _ n => .shlr n) ∧
  ∀ (n : Addr) (s : State),
    exec (.shlb n) s =
      .next { s with acc := join (leftHalf s.acc <<< n.toNat) (rightHalf s.acc <<< n.toNat), pc := s.pc + 1#15 } ∧
    exec (.shll n) s = .next { s with acc := join (leftHalf s.acc <<< n.toNat) (rightHalf s.acc), pc := s.pc + 1#15 } ∧
    exec (.shlr n) s = .next { s with acc := join (leftHalf s.acc) (rightHalf s.acc <<< n.toNat), pc := s.pc + 1#15 } ∧
    (n = 0#15 → exec (.shlb n) s = .next { s with pc := s.pc + 1#15 })

/-- R234, R235, R236 (decision D14): SHRB, SHRL and SHRR shift the halves they name right by the address field, zeros
entering at the sign; the other half is unchanged. -/
def Obligations.RightShiftsShiftTheNamedHalves : Prop :=
  rowDecodes 0x53000000#32 (fun _ _ n => .shrb n) ∧ rowDecodes 0x54000000#32 (fun _ _ n => .shrl n) ∧
  rowDecodes 0x55000000#32 (fun _ _ n => .shrr n) ∧
  ∀ (n : Addr) (s : State),
    exec (.shrb n) s =
      .next { s with acc := join (leftHalf s.acc >>> n.toNat) (rightHalf s.acc >>> n.toNat), pc := s.pc + 1#15 } ∧
    exec (.shrl n) s = .next { s with acc := join (leftHalf s.acc >>> n.toNat) (rightHalf s.acc), pc := s.pc + 1#15 } ∧
    exec (.shrr n) s = .next { s with acc := join (leftHalf s.acc) (rightHalf s.acc >>> n.toNat), pc := s.pc + 1#15 }

/-! ## Branch class -/

/-- R240 (decision D7): JMP goes to the effective address, its low 15 bits, in the instruction's bank. -/
def Obligations.JumpGoesToTheEffectiveAddress : Prop :=
  rowDecodes 0x60000000#32 .jmp ∧
  ∀ (xs : IndexSel) (b : Bank) (a : Addr) (s : State), ∃ t, exec (.jmp xs b a) s = .next t ∧
    t = { s with pc := t.pc, pcBank := b } ∧ t.pc.toNat = effAddr xs b a s % 32768

/-- R241, R242 (decision D15): BZE branches exactly when the accumulator is one of the four zero words, BNZ
exactly when it is not; neither changes anything else. -/
def Obligations.ZeroTestsAcceptBothZeros : Prop :=
  rowDecodes 0x61000000#32 .bnz ∧ rowDecodes 0x62000000#32 .bze ∧
  ∀ (xs : IndexSel) (b : Bank) (a : Addr) (s : State),
    (s.acc ∈ [0x00000000#32, 0x0000FFFF#32, 0xFFFF0000#32, 0xFFFFFFFF#32] →
      exec (.bze xs b a) s = .next { s with pc := BitVec.ofNat 15 (effAddr xs b a s), pcBank := b } ∧
      exec (.bnz xs b a) s = .next { s with pc := s.pc + 1#15 }) ∧
    (s.acc ∉ [0x00000000#32, 0x0000FFFF#32, 0xFFFF0000#32, 0xFFFFFFFF#32] →
      exec (.bze xs b a) s = .next { s with pc := s.pc + 1#15 } ∧
      exec (.bnz xs b a) s = .next { s with pc := BitVec.ofNat 15 (effAddr xs b a s), pcBank := b })

/-- R243 (decisions D8, D16): TIX decrements the register it names modulo 2^16 and branches, to its unindexed
target, exactly when the new value is positive: when the old value was above 1 or was -32768. -/
def Obligations.IndexLoopDecrementsThenTests : Prop :=
  rowDecodes 0x63000000#32 .tix ∧
  ∀ (xs : IndexSel) (b : Bank) (a : Addr) (s : State) (old : IxWord), ixRead? xs s = some old →
    ∃ t, exec (.tix xs b a) s = .next t ∧ t = { s with ix := t.ix, pc := t.pc, pcBank := t.pcBank } ∧
      ixRead? xs t = some (old - 1#16) ∧ (∀ ys, ys ≠ xs → ixRead? ys t = ixRead? ys s) ∧ t.ix.ix3 = s.ix.ix3 ∧
      (1 < old.toInt ∨ old = 0x8000#16 → t.pcBank = b ∧ t.pc.toNat = a.toNat % bankSize b % 32768) ∧
      (¬(1 < old.toInt ∨ old = 0x8000#16) → t.pcBank = s.pcBank ∧ t.pc = s.pc + 1#15)

/-- R244 (decision D17): JSR overwrites the slot at its target with the link word, a zero left half and the
caller's bank and next offset, and continues at the target plus one; every other slot reads as before. -/
def Obligations.CallStoresTheLinkWord : Prop :=
  rowDecodes 0x64000000#32 .jsr ∧
  ∀ (xs : IndexSel) (b : Bank) (a : Addr) (s : State), s.mem.wf = true →
    ∃ t link, exec (.jsr xs b a) s = .next t ∧ t = { s with mem := t.mem, pc := t.pc, pcBank := b } ∧
      t.pc.toNat = (effAddr xs b a s + 1) % 32768 ∧
      leftHalf link = 0x0000#16 ∧ link.extractLsb' 0 15 = s.pc + 1#15 ∧
      link.getLsbD 15 = decide (s.pcBank = .bank2) ∧
      ∀ b' x, memRead b' x t = if b' = b ∧ slotOf b' x = effAddr xs b a s then link else memRead b' x s

/-- R246: RET goes where the word at the effective address says, its bits 14:0 and its bit 15, and changes nothing
else. -/
def Obligations.ReturnFollowsTheLinkWord : Prop :=
  rowDecodes 0x65000000#32 .ret ∧
  ∀ (xs : IndexSel) (b : Bank) (a : Addr) (s : State) (w : Word), w = memRead b (effAddr xs b a s : Int) s →
    exec (.ret xs b a) s =
      .next { s with pc := w.extractLsb' 0 15, pcBank := if w.getLsbD 15 then .bank2 else .bank1 }

/-- The property of 45_branch.md R246 that the spec marks derived: a RET through the slot a JSR stored its link word in,
in any later state in which that slot is unchanged, resumes at the instruction after the call. -/
def Obligations.ReturnResumesAfterTheCall : Prop :=
  ∀ (xs ys : IndexSel) (b : Bank) (a c : Addr) (s t u : State), s.mem.wf = true → exec (.jsr xs b a) s = .next t →
    effAddr ys b c u = effAddr xs b a s →
    memRead b (effAddr xs b a s : Int) u = memRead b (effAddr xs b a s : Int) t →
    exec (.ret ys b c) u = .next { u with pc := s.pc + 1#15, pcBank := s.pcBank }

/-! ## I/O class -/

/-- R250, R73 (decisions D18, D21, D22): RDF loads the accumulator with what the I/O address names, by the
regions of the I/O map, and halts on an unmapped address with the accumulator unchanged. -/
def Obligations.ReadFollowsTheIoMap : Prop :=
  rowDecodes 0x70000000#32 (fun xs _ a => .rdf xs a) ∧
  ∀ (xs : IndexSel) (a : Addr) (s : State) (n : Nat), n = (ioAddr xs a s).toNat →
    (n : Int) = ((a.toNat : Int) + indexValue xs s) % 32768 ∧
    (∀ f : Field, fieldNumber f * 0x1000 ≤ n → n < (fieldNumber f + 1) * 0x1000 →
      exec (.rdf xs a) s =
        .next { s with acc := readField f ((n - fieldNumber f * 0x1000 : Nat) : Int) s, pc := s.pc + 1#15 }) ∧
    (n = 0x7000 → exec (.rdf xs a) s = .next { s with acc := statusWord s, pc := s.pc + 1#15 }) ∧
    (n = 0x7001 → exec (.rdf xs a) s = .next { s with acc := join 0x0000#16 s.rtc, pc := s.pc + 1#15 }) ∧
    (0x6000 ≤ n ∧ n < 0x7000 ∨ 0x7002 ≤ n →
      exec (.rdf xs a) s = .next { s with running := false, pc := s.pc + 1#15 })

/-- R251, R74 (decisions D18, D22): WRF into a drum field stores the accumulator there and sets that field's channel, and
nothing else; a write to STATUS clears the channels whose bit is 1; a write to CLOCK changes nothing; on an unmapped
address the core halts with nothing written. -/
def Obligations.WriteStoresAndSignals : Prop :=
  rowDecodes 0x71000000#32 (fun xs _ a => .wrf xs a) ∧
  ∀ (xs : IndexSel) (a : Addr) (s : State) (n : Nat), n = (ioAddr xs a s).toNat → s.drum.wf = true →
    (n : Int) = ((a.toNat : Int) + indexValue xs s) % 32768 ∧
    (∀ f : Field, fieldNumber f * 0x1000 ≤ n → n < (fieldNumber f + 1) * 0x1000 →
      ∃ t, exec (.wrf xs a) s = .next t ∧ t = { s with drum := t.drum, chan := t.chan, pc := s.pc + 1#15 } ∧
        (∀ f' x, readField f' x t =
          if f' = f ∧ fieldSlot x = n - fieldNumber f * 0x1000 then s.acc else readField f' x s) ∧
        (∀ f', checkStatus (.field f') t = (checkStatus (.field f') s || decide (f' = f)))) ∧
    (n = 0x7000 → ∃ t, exec (.wrf xs a) s = .next t ∧ t = { s with chan := t.chan, lg := t.lg, pc := s.pc + 1#15 } ∧
      ∀ c, checkStatus c t = (checkStatus c s && !(s.acc.getLsbD (channelNumber c)))) ∧
    (n = 0x7001 → exec (.wrf xs a) s = .next { s with pc := s.pc + 1#15 }) ∧
    (0x6000 ≤ n ∧ n < 0x7000 ∨ 0x7002 ≤ n →
      exec (.wrf xs a) s = .next { s with running := false, pc := s.pc + 1#15 })

/-- R280 (decisions D20, D24): a read of STATUS gives the word with bit `c` equal to `check_status(c)` and bits 31:7 zero,
so it is a zero word exactly when nothing is pending; a write clears exactly the channels whose bit is 1, channel 6 by
disarming a gun in FlashPending (R296). -/
def Obligations.StatusRegisterReadsAndClears : Prop :=
  (∀ (s : State) (c : Channel), (statusWord s).getLsbD (channelNumber c) = checkStatus c s) ∧
  (∀ (s : State) (i : Nat), 7 ≤ i → (statusWord s).getLsbD i = false) ∧
  (∀ s : State, isZeroWord (statusWord s) = true ↔ ∀ c, checkStatus c s = false) ∧
  (∀ (xs : IndexSel) (a : Addr) (s : State), ioAddr xs a s = 0x7000#15 →
    exec (.rdf xs a) s = .next { s with acc := statusWord s, pc := s.pc + 1#15 } ∧
    ∃ t, exec (.wrf xs a) s = .next t ∧ t = { s with chan := t.chan, lg := t.lg, pc := s.pc + 1#15 } ∧
      (∀ c, checkStatus c t = (checkStatus c s && !(s.acc.getLsbD (channelNumber c)))) ∧
      t.lg = if s.acc.getLsbD 6 = true ∧ s.lg.flash = true then { s.lg with flash := false, armed := false } else s.lg)

/-- R252, R253 (decision D23): LDX loads the register it names with the right half of the word at the unindexed address;
CLX clears it; no other register changes. -/
def Obligations.IndexRegistersLoadAndClear : Prop :=
  rowDecodes 0x72000000#32 .ldx ∧ rowDecodes 0x73000000#32 (fun xs _ _ => .clx xs) ∧
  ∀ (xs : IndexSel) (s : State), xs ≠ .none →
    (∀ (b : Bank) (a : Addr), ∃ t, exec (.ldx xs b a) s = .next t ∧ t = { s with ix := t.ix, pc := s.pc + 1#15 } ∧
      ixRead? xs t = some ((memRead b (a.toNat : Int) s).extractLsb' 0 16) ∧
      (∀ ys, ys ≠ xs → ixRead? ys t = ixRead? ys s) ∧ t.ix.ix3 = s.ix.ix3) ∧
    (∃ t, exec (.clx xs) s = .next t ∧ t = { s with ix := t.ix, pc := s.pc + 1#15 } ∧
      ixRead? xs t = some 0x0000#16 ∧ (∀ ys, ys ≠ xs → ixRead? ys t = ixRead? ys s) ∧ t.ix.ix3 = s.ix.ix3)

/-! ## Halting -/

/-- R260 (decisions D4, D6): HLT stops the core with the program counter at the next word; every word with class and
opcode 0 is HLT, whatever its other bits. -/
def Obligations.HaltStopsAtTheNextWord : Prop :=
  rowDecodes 0x00000000#32 (fun _ _ _ => .hlt) ∧
  (∀ s : State, exec .hlt s = .next { s with running := false, pc := s.pc + 1#15 }) ∧
  (∀ s : State, s.running = true → fetchWord s &&& 0x7F000000#32 = 0x00000000#32 →
    step s = .next { s with running := false, pc := s.pc + 1#15, icount := s.icount + 1 })

/-- R110, R261 (decision D6): the 104 pairs of class and opcode outside the opcode map, and TIX, LDX and CLX with no
register named, execute exactly as HLT. -/
def Obligations.UnrecognisedCombinationsHalt : Prop :=
  (∀ w : Word,
    w.extractLsb' 24 7 ∉
      [0x00#7, 0x10#7, 0x11#7, 0x20#7, 0x30#7, 0x40#7, 0x41#7, 0x42#7, 0x50#7, 0x51#7, 0x52#7, 0x53#7, 0x54#7, 0x55#7,
        0x60#7, 0x61#7, 0x62#7, 0x63#7, 0x64#7, 0x65#7, 0x70#7, 0x71#7, 0x72#7, 0x73#7] →
    decode w = .unrecognised (w.extractLsb' 28 3) (w.extractLsb' 24 4)) ∧
  (∀ (s : State) (c : BitVec 3) (o : BitVec 4), s.running = true → decode (fetchWord s) = .unrecognised c o →
    step s = .next { s with running := false, pc := s.pc + 1#15, icount := s.icount + 1 }) ∧
  (∀ (b : Bank) (a : Addr) (s : State),
    exec (.tix .none b a) s = exec .hlt s ∧ exec (.ldx .none b a) s = exec .hlt s ∧ exec (.clx .none) s = exec .hlt s)

/-! ## The drum -/

/-- R272, R273: `write_field` stores the word and sets the field's channel in one transition, and nothing else changes;
`read_field` returns the word and changes nothing. -/
def Obligations.FieldWriteSetsItsChannel : Prop :=
  ∀ (f : Field) (id : BitVec 3) (a : Int) (w : Word) (s : State), s.drum.wf = true → fieldOfId id = some f →
    (∃ t, hostAct (.writeField id a w) s = (t, .done) ∧ t = { s with drum := t.drum, chan := t.chan } ∧
      (∀ f' x, readField f' x t = if f' = f ∧ x % 4096 = a % 4096 then w else readField f' x s) ∧
      (∀ f', checkStatus (.field f') t = (checkStatus (.field f') s || decide (f' = f)))) ∧
    hostAct (.readField id a) s = (s, .word (readField f a s))

/-- R274, R275: `check_status` changes nothing, and `clear_status` clears its own channel and no other, keeps
every word of the drum, and on channel 6 disarms a gun in FlashPending (R296). -/
def Obligations.ClearStatusClearsItsChannel : Prop :=
  ∀ (c : Channel) (n : Nat) (s : State), channelOfNumber n = some c →
    hostAct (.checkStatus n) s = (s, .flag (checkStatus c s)) ∧
    ∃ t, hostAct (.clearStatus n) s = (t, .done) ∧ t = { s with chan := t.chan, lg := t.lg } ∧
      (∀ d, checkStatus d t = (checkStatus d s && decide (d ≠ c))) ∧
      t.lg = if c = .lg ∧ s.lg.flash = true then { s.lg with flash := false, armed := false } else s.lg

/-- 10_state.md R33, 48_drum_io.md R277, 49_light_gun.md R295, R298: no operation of any agent clears a set field channel
but `clear_status` of that channel and a write to STATUS with its bit 1; and none changes the light gun but its own three
operations, `clear_status(6)` and a write to STATUS with bit 6. -/
def Obligations.ChannelsAndGunChangeOnlyByTheirOperations : Prop :=
  (∀ (o : Op) (f : Field) (s t : State), act o s = .next t → checkStatus (.field f) s = true →
    checkStatus (.field f) t = false →
    o = .host (.clearStatus (fieldNumber f)) ∨
    (o = .cpu ∧ ∃ xs a, decode (fetchWord s) = .instr (.wrf xs a) ∧ ioAddr xs a s = 0x7000#15 ∧
      s.acc.getLsbD (fieldNumber f) = true)) ∧
  (∀ (o : Op) (s t : State), act o s = .next t → t.lg ≠ s.lg →
    (∃ x y, o = .host (.arm x y)) ∨ (∃ c x y, o = .host (.drawEvent c x y)) ∨ o = .host .pollAndClear ∨
    o = .host (.clearStatus 6) ∨
    (o = .cpu ∧ ∃ xs a, decode (fetchWord s) = .instr (.wrf xs a) ∧ ioAddr xs a s = 0x7000#15 ∧
      s.acc.getLsbD 6 = true))

/-- R278, R279 (decision D36): a field identifier or a channel number that names nothing returns `UnknownField` and
changes no state; the six identifiers and the seven numbers name all fields and channels. That an identifier is a 3-bit
code, with 0 to 5 the fields in order and 6 and 7 naming nothing, and a channel a natural number is the model's choice
among the types R278 offers (log entry 17), so the statement is derived. -/
def Obligations.UnknownFieldChangesNothing : Prop :=
  (∀ f : Field, fieldOfId (BitVec.ofNat 3 (fieldNumber f)) = some f) ∧
  (∀ c : Channel, channelOfNumber (channelNumber c) = some c) ∧
  (∀ (id : BitVec 3) (a : Int) (w : Word) (s : State), 6 ≤ id.toNat →
    hostAct (.writeField id a w) s = (s, .unknownField) ∧ hostAct (.readField id a) s = (s, .unknownField)) ∧
  (∀ (n : Nat) (s : State), 7 ≤ n →
    hostAct (.checkStatus n) s = (s, .unknownField) ∧ hostAct (.clearStatus n) s = (s, .unknownField))

/-! ## The light gun -/

/-- R291, R292, R293, R294 (decision D25): `arm` from any state, `draw_event` in each state, and `poll_and_clear`, which
returns the remembered identifier only in FlashPending and then disarms. -/
def Obligations.LightGunFollowsItsStates : Prop :=
  ∀ s : State,
    (∀ x y, hostAct (.arm x y) s =
      ({ s with lg := { s.lg with armed := true, tx := x, ty := y, flash := false } }, .done)) ∧
    (∀ c x y, s.lg.armed = true → s.lg.flash = false →
      (x - s.lg.tx) ^ 2 + (y - s.lg.ty) ^ 2 ≤ (Config.lgRadiusSq : Int) →
      hostAct (.drawEvent c x y) s = ({ s with lg := { s.lg with flash := true, hit := c } }, .flag true)) ∧
    (∀ c x y, (s.lg.armed = false ∨ s.lg.flash = true ∨
        (Config.lgRadiusSq : Int) < (x - s.lg.tx) ^ 2 + (y - s.lg.ty) ^ 2) →
      hostAct (.drawEvent c x y) s = (s, .flag false)) ∧
    (s.lg.flash = true → hostAct .pollAndClear s =
      ({ s with lg := { s.lg with flash := false, armed := false } }, .candidate (some s.lg.hit))) ∧
    (s.lg.flash = false → hostAct .pollAndClear s = (s, .candidate none)) ∧
    2 ≤ Config.lgRadiusSq ∧ Config.lgRadiusSq < 3200

/-- R297: of any sequence of `draw_event` calls on an Armed gun, the first candidate within the radius is the one
selected, whatever comes after it; if none is, the gun stays as it was. -/
def Obligations.FirstMatchWins : Prop :=
  ∀ (s : State) (cs : List (Config.CandId × Config.Coord × Config.Coord)), s.lg.armed = true → s.lg.flash = false →
    runOps (cs.map fun c => .host (.drawEvent c.1 c.2.1 c.2.2)) s =
      .next { s with
        lg := match cs.find? (fun c => withinSq Config.lgRadiusSq s.lg c.2.1 c.2.2) with
          | none => s.lg
          | some c => { s.lg with flash := true, hit := c.1 } }

/-! ## The operator and the clock -/

/-- R181 (decision D31): `load_program` on a Halted core writes its words one after another from the start address,
wrapping at the end of the bank, later words over earlier ones, keeps every other slot, sets the program counter and its
bank, and leaves the core Halted and its registers as they were. -/
def Obligations.LoadProgramPlacesItsWords : Prop :=
  ∀ (words : List Word) (start : Nat) (b : Bank) (s : State), s.running = false → s.mem.wf = true →
    ∃ t, hostAct (.loadProgram words start b) s = (t, .done) ∧ t = { s with mem := t.mem, pc := t.pc, pcBank := b } ∧
      t.pc.toNat = start % 32768 ∧
      (∀ (i : Nat) (w : Word), words[i]? = some w →
        (∀ j, i < j → j < words.length → slotOf b ((start + j : Nat) : Int) ≠ slotOf b ((start + i : Nat) : Int)) →
        memRead b ((start + i : Nat) : Int) t = w) ∧
      (∀ (b' : Bank) (x : Int),
        (b' ≠ b ∨ ∀ j, j < words.length → slotOf b ((start + j : Nat) : Int) ≠ slotOf b x) →
        memRead b' x t = memRead b' x s)

/-- R182 (decision D27): `start()` makes the core run, at whatever the program counter holds, and changes nothing else;
on a Running core it changes nothing. -/
def Obligations.StartOnlySetsRunning : Prop :=
  ∀ s : State, ∃ t, hostAct .start s = (t, .done) ∧ t = { s with running := true } ∧ fetchWord t = fetchWord s ∧
    (s.running = true → t = s)

/-- R318 (decision D32): a tick adds its pulses modulo 2^16 and changes nothing else, in either run state; an elapsed time
of `e` seconds is `floor(32 e)` pulses. -/
def Obligations.ClockAddsItsPulses : Prop :=
  (∀ (n : Nat) (s : State), ∃ t, hostAct (.tick n) s = (t, .done) ∧ t = { s with rtc := t.rtc } ∧
    t.rtc.toNat = (s.rtc.toNat + n) % 65536) ∧
  (∀ (e : Rat) (s : State), 0 ≤ e → ∃ n : Nat, (n : Rat) ≤ e * 32 ∧ e * 32 < (n : Rat) + 1 ∧
    hostAct (.tickRealTimeClock e) s = hostAct (.tick n) s)

/-- 10_state.md R37, 20_memory.md R85: no operation of the environment but `load_program`, `start()`, `reset()` and the
clock tick changes what the read accessors show, and none but `reset()` changes the accumulator or an index register. -/
def Obligations.EnvironmentKeepsCoreRegisters : Prop :=
  ∀ (o : HostOp) (s : State),
    ((∀ w a b, o ≠ .loadProgram w a b) → o ≠ .start → o ≠ .reset → (∀ n, o ≠ .tick n) →
      (∀ e, o ≠ .tickRealTimeClock e) → coreView (hostAct o s).1 = coreView s) ∧
    (o ≠ .reset → (hostAct o s).1.acc = s.acc ∧ (hostAct o s).1.ix = s.ix ∧ (hostAct o s).1.icount = s.icount)
end

