-- ==== Sys2Proof/Laws/State.lean ====
section
/-! SUPPORT. One lemma per field per update of the state, so that no later proof unfolds a record update. -/

namespace Sys2Proof.Machine

@[simp] theorem setAcc_acc (v : Word) (s : State) : (setAcc v s).acc = v := rfl
@[simp] theorem setAcc_ix (v : Word) (s : State) : (setAcc v s).ix = s.ix := rfl
@[simp] theorem setAcc_pc (v : Word) (s : State) : (setAcc v s).pc = s.pc := rfl
@[simp] theorem setAcc_pcBank (v : Word) (s : State) : (setAcc v s).pcBank = s.pcBank := rfl
@[simp] theorem setAcc_rtc (v : Word) (s : State) : (setAcc v s).rtc = s.rtc := rfl
@[simp] theorem setAcc_icount (v : Word) (s : State) : (setAcc v s).icount = s.icount := rfl
@[simp] theorem setAcc_running (v : Word) (s : State) : (setAcc v s).running = s.running := rfl
@[simp] theorem setAcc_mem (v : Word) (s : State) : (setAcc v s).mem = s.mem := rfl
@[simp] theorem setAcc_drum (v : Word) (s : State) : (setAcc v s).drum = s.drum := rfl
@[simp] theorem setAcc_chan (v : Word) (s : State) : (setAcc v s).chan = s.chan := rfl
@[simp] theorem setAcc_lg (v : Word) (s : State) : (setAcc v s).lg = s.lg := rfl

@[simp] theorem advance_acc (s : State) : (advance s).acc = s.acc := rfl
@[simp] theorem advance_ix (s : State) : (advance s).ix = s.ix := rfl
@[simp] theorem advance_pc (s : State) : (advance s).pc = s.pc + 1#15 := rfl
@[simp] theorem advance_pcBank (s : State) : (advance s).pcBank = s.pcBank := rfl
@[simp] theorem advance_rtc (s : State) : (advance s).rtc = s.rtc := rfl
@[simp] theorem advance_icount (s : State) : (advance s).icount = s.icount := rfl
@[simp] theorem advance_running (s : State) : (advance s).running = s.running := rfl
@[simp] theorem advance_mem (s : State) : (advance s).mem = s.mem := rfl
@[simp] theorem advance_drum (s : State) : (advance s).drum = s.drum := rfl
@[simp] theorem advance_chan (s : State) : (advance s).chan = s.chan := rfl
@[simp] theorem advance_lg (s : State) : (advance s).lg = s.lg := rfl

@[simp] theorem branchTo_acc (b : Bank) (off : Nat) (s : State) : (branchTo b off s).acc = s.acc := rfl
@[simp] theorem branchTo_ix (b : Bank) (off : Nat) (s : State) : (branchTo b off s).ix = s.ix := rfl
@[simp] theorem branchTo_pc (b : Bank) (off : Nat) (s : State) : (branchTo b off s).pc = BitVec.ofNat 15 off := rfl
@[simp] theorem branchTo_pcBank (b : Bank) (off : Nat) (s : State) : (branchTo b off s).pcBank = b := rfl
@[simp] theorem branchTo_rtc (b : Bank) (off : Nat) (s : State) : (branchTo b off s).rtc = s.rtc := rfl
@[simp] theorem branchTo_icount (b : Bank) (off : Nat) (s : State) : (branchTo b off s).icount = s.icount := rfl
@[simp] theorem branchTo_running (b : Bank) (off : Nat) (s : State) : (branchTo b off s).running = s.running := rfl
@[simp] theorem branchTo_mem (b : Bank) (off : Nat) (s : State) : (branchTo b off s).mem = s.mem := rfl
@[simp] theorem branchTo_drum (b : Bank) (off : Nat) (s : State) : (branchTo b off s).drum = s.drum := rfl
@[simp] theorem branchTo_chan (b : Bank) (off : Nat) (s : State) : (branchTo b off s).chan = s.chan := rfl
@[simp] theorem branchTo_lg (b : Bank) (off : Nat) (s : State) : (branchTo b off s).lg = s.lg := rfl

@[simp] theorem haltCore_acc (s : State) : (haltCore s).acc = s.acc := rfl
@[simp] theorem haltCore_ix (s : State) : (haltCore s).ix = s.ix := rfl
@[simp] theorem haltCore_pc (s : State) : (haltCore s).pc = s.pc := rfl
@[simp] theorem haltCore_pcBank (s : State) : (haltCore s).pcBank = s.pcBank := rfl
@[simp] theorem haltCore_rtc (s : State) : (haltCore s).rtc = s.rtc := rfl
@[simp] theorem haltCore_icount (s : State) : (haltCore s).icount = s.icount := rfl
@[simp] theorem haltCore_running (s : State) : (haltCore s).running = false := rfl
@[simp] theorem haltCore_mem (s : State) : (haltCore s).mem = s.mem := rfl
@[simp] theorem haltCore_drum (s : State) : (haltCore s).drum = s.drum := rfl
@[simp] theorem haltCore_chan (s : State) : (haltCore s).chan = s.chan := rfl
@[simp] theorem haltCore_lg (s : State) : (haltCore s).lg = s.lg := rfl

@[simp] theorem countUp_acc (s : State) : (countUp s).acc = s.acc := rfl
@[simp] theorem countUp_ix (s : State) : (countUp s).ix = s.ix := rfl
@[simp] theorem countUp_pc (s : State) : (countUp s).pc = s.pc := rfl
@[simp] theorem countUp_pcBank (s : State) : (countUp s).pcBank = s.pcBank := rfl
@[simp] theorem countUp_rtc (s : State) : (countUp s).rtc = s.rtc := rfl
@[simp] theorem countUp_icount (s : State) : (countUp s).icount = s.icount + 1 := rfl
@[simp] theorem countUp_running (s : State) : (countUp s).running = s.running := rfl
@[simp] theorem countUp_mem (s : State) : (countUp s).mem = s.mem := rfl
@[simp] theorem countUp_drum (s : State) : (countUp s).drum = s.drum := rfl
@[simp] theorem countUp_chan (s : State) : (countUp s).chan = s.chan := rfl
@[simp] theorem countUp_lg (s : State) : (countUp s).lg = s.lg := rfl

@[simp] theorem implicitHalt_acc (s : State) : (implicitHalt s).acc = s.acc := rfl
@[simp] theorem implicitHalt_ix (s : State) : (implicitHalt s).ix = s.ix := rfl
@[simp] theorem implicitHalt_pc (s : State) : (implicitHalt s).pc = s.pc + 1#15 := rfl
@[simp] theorem implicitHalt_pcBank (s : State) : (implicitHalt s).pcBank = s.pcBank := rfl
@[simp] theorem implicitHalt_rtc (s : State) : (implicitHalt s).rtc = s.rtc := rfl
@[simp] theorem implicitHalt_icount (s : State) : (implicitHalt s).icount = s.icount := rfl
@[simp] theorem implicitHalt_running (s : State) : (implicitHalt s).running = false := rfl
@[simp] theorem implicitHalt_mem (s : State) : (implicitHalt s).mem = s.mem := rfl
@[simp] theorem implicitHalt_drum (s : State) : (implicitHalt s).drum = s.drum := rfl
@[simp] theorem implicitHalt_chan (s : State) : (implicitHalt s).chan = s.chan := rfl
@[simp] theorem implicitHalt_lg (s : State) : (implicitHalt s).lg = s.lg := rfl

@[simp] theorem memWrite_acc (b : Bank) (a : Int) (v : Word) (s : State) : (memWrite b a v s).acc = s.acc := rfl
@[simp] theorem memWrite_ix (b : Bank) (a : Int) (v : Word) (s : State) : (memWrite b a v s).ix = s.ix := rfl
@[simp] theorem memWrite_pc (b : Bank) (a : Int) (v : Word) (s : State) : (memWrite b a v s).pc = s.pc := rfl
@[simp] theorem memWrite_pcBank (b : Bank) (a : Int) (v : Word) (s : State) : (memWrite b a v s).pcBank = s.pcBank := rfl
@[simp] theorem memWrite_rtc (b : Bank) (a : Int) (v : Word) (s : State) : (memWrite b a v s).rtc = s.rtc := rfl
@[simp] theorem memWrite_icount (b : Bank) (a : Int) (v : Word) (s : State) : (memWrite b a v s).icount = s.icount := rfl
@[simp] theorem memWrite_running (b : Bank) (a : Int) (v : Word) (s : State) : (memWrite b a v s).running = s.running := rfl
@[simp] theorem memWrite_mem (b : Bank) (a : Int) (v : Word) (s : State) : (memWrite b a v s).mem = setBank s.mem b (storeWrite (bankOf s.mem b) (slotOf b a) v) := rfl
@[simp] theorem memWrite_drum (b : Bank) (a : Int) (v : Word) (s : State) : (memWrite b a v s).drum = s.drum := rfl
@[simp] theorem memWrite_chan (b : Bank) (a : Int) (v : Word) (s : State) : (memWrite b a v s).chan = s.chan := rfl
@[simp] theorem memWrite_lg (b : Bank) (a : Int) (v : Word) (s : State) : (memWrite b a v s).lg = s.lg := rfl

@[simp] theorem writeField_acc (f : Field) (a : Int) (w : Word) (s : State) : (writeField f a w s).acc = s.acc := rfl
@[simp] theorem writeField_ix (f : Field) (a : Int) (w : Word) (s : State) : (writeField f a w s).ix = s.ix := rfl
@[simp] theorem writeField_pc (f : Field) (a : Int) (w : Word) (s : State) : (writeField f a w s).pc = s.pc := rfl
@[simp] theorem writeField_pcBank (f : Field) (a : Int) (w : Word) (s : State) : (writeField f a w s).pcBank = s.pcBank := rfl
@[simp] theorem writeField_rtc (f : Field) (a : Int) (w : Word) (s : State) : (writeField f a w s).rtc = s.rtc := rfl
@[simp] theorem writeField_icount (f : Field) (a : Int) (w : Word) (s : State) : (writeField f a w s).icount = s.icount := rfl
@[simp] theorem writeField_running (f : Field) (a : Int) (w : Word) (s : State) : (writeField f a w s).running = s.running := rfl
@[simp] theorem writeField_mem (f : Field) (a : Int) (w : Word) (s : State) : (writeField f a w s).mem = s.mem := rfl
@[simp] theorem writeField_drum (f : Field) (a : Int) (w : Word) (s : State) : (writeField f a w s).drum = setDrumField s.drum f (storeWrite (drumField s.drum f) (fieldSlot a) w) := rfl
@[simp] theorem writeField_chan (f : Field) (a : Int) (w : Word) (s : State) : (writeField f a w s).chan = setChanFlag s.chan f true := rfl
@[simp] theorem writeField_lg (f : Field) (a : Int) (w : Word) (s : State) : (writeField f a w s).lg = s.lg := rfl

@[simp] theorem hostStart_acc (s : State) : (hostStart s).acc = s.acc := rfl
@[simp] theorem hostStart_ix (s : State) : (hostStart s).ix = s.ix := rfl
@[simp] theorem hostStart_pc (s : State) : (hostStart s).pc = s.pc := rfl
@[simp] theorem hostStart_pcBank (s : State) : (hostStart s).pcBank = s.pcBank := rfl
@[simp] theorem hostStart_rtc (s : State) : (hostStart s).rtc = s.rtc := rfl
@[simp] theorem hostStart_icount (s : State) : (hostStart s).icount = s.icount := rfl
@[simp] theorem hostStart_running (s : State) : (hostStart s).running = true := rfl
@[simp] theorem hostStart_mem (s : State) : (hostStart s).mem = s.mem := rfl
@[simp] theorem hostStart_drum (s : State) : (hostStart s).drum = s.drum := rfl
@[simp] theorem hostStart_chan (s : State) : (hostStart s).chan = s.chan := rfl
@[simp] theorem hostStart_lg (s : State) : (hostStart s).lg = s.lg := rfl

@[simp] theorem hostReset_acc (s : State) : (hostReset s).acc = 0x00000000#32 := rfl
@[simp] theorem hostReset_ix (s : State) : (hostReset s).ix = ⟨0#16, 0#16, 0#16, 0#16⟩ := rfl
@[simp] theorem hostReset_pc (s : State) : (hostReset s).pc = 0#15 := rfl
@[simp] theorem hostReset_pcBank (s : State) : (hostReset s).pcBank = Bank.bank1 := rfl
@[simp] theorem hostReset_rtc (s : State) : (hostReset s).rtc = 0#16 := rfl
@[simp] theorem hostReset_icount (s : State) : (hostReset s).icount = 0 := rfl
@[simp] theorem hostReset_running (s : State) : (hostReset s).running = false := rfl
@[simp] theorem hostReset_mem (s : State) : (hostReset s).mem = s.mem := rfl
@[simp] theorem hostReset_drum (s : State) : (hostReset s).drum = s.drum := rfl
@[simp] theorem hostReset_chan (s : State) : (hostReset s).chan = s.chan := rfl
@[simp] theorem hostReset_lg (s : State) : (hostReset s).lg = s.lg := rfl

@[simp] theorem setIx_acc (xs : IndexSel) (v : IxWord) (s : State) : (setIx xs v s).acc = s.acc := rfl
@[simp] theorem setIx_ix (xs : IndexSel) (v : IxWord) (s : State) : (setIx xs v s).ix = ixWith s.ix xs v := rfl
@[simp] theorem setIx_pc (xs : IndexSel) (v : IxWord) (s : State) : (setIx xs v s).pc = s.pc := rfl
@[simp] theorem setIx_pcBank (xs : IndexSel) (v : IxWord) (s : State) : (setIx xs v s).pcBank = s.pcBank := rfl
@[simp] theorem setIx_rtc (xs : IndexSel) (v : IxWord) (s : State) : (setIx xs v s).rtc = s.rtc := rfl
@[simp] theorem setIx_icount (xs : IndexSel) (v : IxWord) (s : State) : (setIx xs v s).icount = s.icount := rfl
@[simp] theorem setIx_running (xs : IndexSel) (v : IxWord) (s : State) : (setIx xs v s).running = s.running := rfl
@[simp] theorem setIx_mem (xs : IndexSel) (v : IxWord) (s : State) : (setIx xs v s).mem = s.mem := rfl
@[simp] theorem setIx_drum (xs : IndexSel) (v : IxWord) (s : State) : (setIx xs v s).drum = s.drum := rfl
@[simp] theorem setIx_chan (xs : IndexSel) (v : IxWord) (s : State) : (setIx xs v s).chan = s.chan := rfl
@[simp] theorem setIx_lg (xs : IndexSel) (v : IxWord) (s : State) : (setIx xs v s).lg = s.lg := rfl

@[simp] theorem clearStatus_acc (c : Channel) (s : State) : (clearStatus c s).acc = s.acc := rfl
@[simp] theorem clearStatus_ix (c : Channel) (s : State) : (clearStatus c s).ix = s.ix := rfl
@[simp] theorem clearStatus_pc (c : Channel) (s : State) : (clearStatus c s).pc = s.pc := rfl
@[simp] theorem clearStatus_pcBank (c : Channel) (s : State) : (clearStatus c s).pcBank = s.pcBank := rfl
@[simp] theorem clearStatus_rtc (c : Channel) (s : State) : (clearStatus c s).rtc = s.rtc := rfl
@[simp] theorem clearStatus_icount (c : Channel) (s : State) : (clearStatus c s).icount = s.icount := rfl
@[simp] theorem clearStatus_running (c : Channel) (s : State) : (clearStatus c s).running = s.running := rfl
@[simp] theorem clearStatus_mem (c : Channel) (s : State) : (clearStatus c s).mem = s.mem := rfl
@[simp] theorem clearStatus_drum (c : Channel) (s : State) : (clearStatus c s).drum = s.drum := rfl
@[simp] theorem clearStatus_chan (c : Channel) (s : State) : (clearStatus c s).chan = clearChan c s.chan := rfl
@[simp] theorem clearStatus_lg (c : Channel) (s : State) : (clearStatus c s).lg = clearGun c s.lg := rfl

@[simp] theorem tick_acc (n : Nat) (s : State) : (tick n s).acc = s.acc := rfl
@[simp] theorem tick_ix (n : Nat) (s : State) : (tick n s).ix = s.ix := rfl
@[simp] theorem tick_pc (n : Nat) (s : State) : (tick n s).pc = s.pc := rfl
@[simp] theorem tick_pcBank (n : Nat) (s : State) : (tick n s).pcBank = s.pcBank := rfl
@[simp] theorem tick_rtc (n : Nat) (s : State) : (tick n s).rtc = s.rtc + BitVec.ofNat 16 n := rfl
@[simp] theorem tick_icount (n : Nat) (s : State) : (tick n s).icount = s.icount := rfl
@[simp] theorem tick_running (n : Nat) (s : State) : (tick n s).running = s.running := rfl
@[simp] theorem tick_mem (n : Nat) (s : State) : (tick n s).mem = s.mem := rfl
@[simp] theorem tick_drum (n : Nat) (s : State) : (tick n s).drum = s.drum := rfl
@[simp] theorem tick_chan (n : Nat) (s : State) : (tick n s).chan = s.chan := rfl
@[simp] theorem tick_lg (n : Nat) (s : State) : (tick n s).lg = s.lg := rfl

/-! ## The index registers by index select -/

@[simp] theorem ixWith_none (r : IxRegs) (v : IxWord) : ixWith r .none v = r := rfl
@[simp] theorem ixWith_x0 (r : IxRegs) (v : IxWord) : ixWith r .x0 v = { r with ix0 := v } := rfl
@[simp] theorem ixWith_x1 (r : IxRegs) (v : IxWord) : ixWith r .x1 v = { r with ix1 := v } := rfl
@[simp] theorem ixWith_x2 (r : IxRegs) (v : IxWord) : ixWith r .x2 v = { r with ix2 := v } := rfl
@[simp] theorem ixRead?_none (s : State) : ixRead? .none s = none := rfl
@[simp] theorem ixRead?_x0 (s : State) : ixRead? .x0 s = some s.ix.ix0 := rfl
@[simp] theorem ixRead?_x1 (s : State) : ixRead? .x1 s = some s.ix.ix1 := rfl
@[simp] theorem ixRead?_x2 (s : State) : ixRead? .x2 s = some s.ix.ix2 := rfl
@[simp] theorem ixWith_ix3 (r : IxRegs) (xs : IndexSel) (v : IxWord) : (ixWith r xs v).ix3 = r.ix3 :=
  match xs with
  | .none | .x0 | .x1 | .x2 => rfl

/-! ## `clearStatus` by channel -/

@[simp] theorem clearChan_field (f : Field) (ch : Channels) : clearChan (.field f) ch = setChanFlag ch f false := rfl
@[simp] theorem clearChan_lg (ch : Channels) : clearChan .lg ch = ch := rfl
@[simp] theorem clearGun_field (f : Field) (g : LightGun) : clearGun (.field f) g = g := rfl
@[simp] theorem clearGun_lg (g : LightGun) : clearGun .lg g = lgConsume g := rfl

/-! ## `writeStatus`, which changes the channels and the light gun only -/

theorem clearChannels_frame (v : Word) (cs : List Channel) (s : State) :
    clearChannels v cs s = { s with chan := (clearChannels v cs s).chan, lg := (clearChannels v cs s).lg } := by
  induction cs generalizing s with
  | nil => rfl
  | cons c cs ih => rw [clearChannels, ih]; split <;> rfl

theorem writeStatus_frame (v : Word) (s : State) :
    writeStatus v s = { s with chan := (writeStatus v s).chan, lg := (writeStatus v s).lg } :=
  clearChannels_frame v allChannels s

@[simp] theorem writeStatus_acc (v : Word) (s : State) : (writeStatus v s).acc = s.acc := by rw [writeStatus_frame]
@[simp] theorem writeStatus_ix (v : Word) (s : State) : (writeStatus v s).ix = s.ix := by rw [writeStatus_frame]
@[simp] theorem writeStatus_pc (v : Word) (s : State) : (writeStatus v s).pc = s.pc := by rw [writeStatus_frame]
@[simp] theorem writeStatus_pcBank (v : Word) (s : State) : (writeStatus v s).pcBank = s.pcBank := by rw [writeStatus_frame]
@[simp] theorem writeStatus_rtc (v : Word) (s : State) : (writeStatus v s).rtc = s.rtc := by rw [writeStatus_frame]
@[simp] theorem writeStatus_icount (v : Word) (s : State) : (writeStatus v s).icount = s.icount := by rw [writeStatus_frame]
@[simp] theorem writeStatus_running (v : Word) (s : State) : (writeStatus v s).running = s.running := by rw [writeStatus_frame]
@[simp] theorem writeStatus_mem (v : Word) (s : State) : (writeStatus v s).mem = s.mem := by rw [writeStatus_frame]
@[simp] theorem writeStatus_drum (v : Word) (s : State) : (writeStatus v s).drum = s.drum := by rw [writeStatus_frame]

end Sys2Proof.Machine
end

