-- ==== Sys2Proof/Laws/Store.lean ====
section
/-! SUPPORT. What a sparse store reads as after a write, and that a write keeps its canonical form. -/

namespace Sys2Proof.Machine

/-! ## Stores -/

@[simp] theorem storeRead_nil (a : Nat) : storeRead [] a = Config.unlistedWord := rfl

theorem storeRead_cons (k : Nat) (w : Word) (m : Store) (a : Nat) :
    storeRead ((k, w) :: m) a = if k = a then w else storeRead m a := rfl

theorem storeWfFrom_cons (size lo k : Nat) (w : Word) (m : Store) :
    storeWfFrom size lo ((k, w) :: m) = true ↔
      lo ≤ k ∧ k < size ∧ w ≠ Config.unlistedWord ∧ storeWfFrom size (k + 1) m = true := by
  simp [storeWfFrom, and_assoc]

theorem storeWfFrom_mono {size lo lo' : Nat} {m : Store} (h : storeWfFrom size lo m = true) (hle : lo' ≤ lo) :
    storeWfFrom size lo' m = true := by
  cases m with
  | nil => rfl
  | cons e m =>
    obtain ⟨k, w⟩ := e
    rw [storeWfFrom_cons] at h ⊢
    exact ⟨by omega, h.2⟩

/-- A slot below the first listed one reads as unlisted. -/
theorem storeRead_below {size lo a : Nat} {m : Store} (h : storeWfFrom size lo m = true) (ha : a < lo) :
    storeRead m a = Config.unlistedWord := by
  induction m generalizing lo with
  | nil => rfl
  | cons e m ih =>
    obtain ⟨k, w⟩ := e
    rw [storeWfFrom_cons] at h
    rw [storeRead_cons, if_neg (by omega)]
    exact ih h.2.2.2 (by omega)

/-- What a store in canonical form reads as after a write: the word written in its slot, every other slot as before. -/
theorem storeRead_storeWrite_from {size lo : Nat} {m : Store} (h : storeWfFrom size lo m = true) (a : Nat) (v : Word)
    (x : Nat) : storeRead (storeWrite m a v) x = if x = a then v else storeRead m x := by
  induction m generalizing lo with
  | nil =>
    unfold storeWrite
    by_cases hv : v = Config.unlistedWord
    · simp [hv]
    · simp [hv, storeRead_cons, eq_comm]
  | cons e m ih =>
    obtain ⟨k, w⟩ := e
    rw [storeWfFrom_cons] at h
    have hbelow : ∀ y, y ≤ k → storeRead m y = Config.unlistedWord := fun y hy =>
      storeRead_below h.2.2.2 (by omega)
    have ih := ih h.2.2.2
    unfold storeWrite
    by_cases h1 : a < k
    · by_cases hv : v = Config.unlistedWord
      · by_cases hx : x = a
        · subst hx
          simp [h1, hv, storeRead_cons, show ¬ k = x by omega, hbelow x (by omega)]
        · simp [h1, hv, hx]
      · by_cases hx : x = a
        · simp [h1, hv, storeRead_cons, hx]
        · simp [h1, hv, storeRead_cons, hx, show ¬ a = x from fun e => hx e.symm]
    · by_cases h2 : a = k
      · subst h2
        by_cases hv : v = Config.unlistedWord
        · by_cases hx : x = a
          · subst hx
            simp [hv, hbelow x (le_refl x)]
          · simp [hv, storeRead_cons, hx, show ¬ a = x from fun e => hx e.symm]
        · by_cases hx : x = a
          · simp [hv, storeRead_cons, hx]
          · simp [hv, storeRead_cons, hx, show ¬ a = x from fun e => hx e.symm]
      · simp only [h1, h2, if_false, storeRead_cons, ih]
        by_cases hx : x = a
        · subst hx
          simp [show ¬ k = x from fun e => h2 e.symm]
        · simp [hx]

theorem storeRead_storeWrite {size : Nat} {m : Store} (h : storeWf size m = true) (a : Nat) (v : Word) (x : Nat) :
    storeRead (storeWrite m a v) x = if x = a then v else storeRead m x :=
  storeRead_storeWrite_from h a v x

theorem storeWrite_wf_from {size lo a : Nat} {m : Store} (h : storeWfFrom size lo m = true) (hlo : lo ≤ a)
    (ha : a < size) (v : Word) : storeWfFrom size lo (storeWrite m a v) = true := by
  induction m generalizing lo with
  | nil =>
    unfold storeWrite
    split
    · rfl
    · next hv => exact (storeWfFrom_cons ..).2 ⟨hlo, ha, hv, rfl⟩
  | cons e m ih =>
    obtain ⟨k, w⟩ := e
    have hc := (storeWfFrom_cons ..).1 h
    unfold storeWrite
    split
    · next h1 =>
      split
      · exact h
      · next hv => exact (storeWfFrom_cons ..).2 ⟨hlo, ha, hv, (storeWfFrom_cons ..).2 ⟨by omega, hc.2⟩⟩
    · split
      · next h2 =>
        split
        · exact storeWfFrom_mono hc.2.2.2 (by omega)
        · next hv => exact (storeWfFrom_cons ..).2 ⟨hlo, ha, hv, h2 ▸ hc.2.2.2⟩
      · next h1 h2 => exact (storeWfFrom_cons ..).2 ⟨hc.1, hc.2.1, hc.2.2.1, ih hc.2.2.2 (by omega)⟩

/-- A write to a slot of the store keeps the canonical form. -/
theorem storeWrite_wf {size a : Nat} {m : Store} (h : storeWf size m = true) (ha : a < size) (v : Word) :
    storeWf size (storeWrite m a v) = true :=
  storeWrite_wf_from h (Nat.zero_le a) ha v

@[simp] theorem storeWf_nil (size : Nat) : storeWf size [] = true := rfl

/-- Two stores in canonical form that read alike everywhere are equal data. -/
theorem store_ext {size lo : Nat} {m n : Store} (hm : storeWfFrom size lo m = true) (hn : storeWfFrom size lo n = true)
    (h : ∀ a, storeRead m a = storeRead n a) : m = n := by
  induction m generalizing lo n with
  | nil =>
    cases n with
    | nil => rfl
    | cons e n =>
      obtain ⟨k, w⟩ := e
      have hk := h k
      rw [storeRead_cons, if_pos rfl] at hk
      exact absurd hk.symm ((storeWfFrom_cons ..).1 hn).2.2.1
  | cons e m ih =>
    obtain ⟨k, w⟩ := e
    have hm' := (storeWfFrom_cons ..).1 hm
    cases n with
    | nil =>
      have hk := h k
      rw [storeRead_cons, if_pos rfl] at hk
      exact absurd hk hm'.2.2.1
    | cons e' n =>
      obtain ⟨k', w'⟩ := e'
      have hn' := (storeWfFrom_cons ..).1 hn
      have hkk : k = k' := by
        rcases Nat.lt_trichotomy k k' with hlt | heq | hgt
        · have hk := h k
          rw [storeRead_cons, if_pos rfl, storeRead_cons, if_neg (by omega),
            storeRead_below hn'.2.2.2 (by omega)] at hk
          exact absurd hk hm'.2.2.1
        · exact heq
        · have hk := h k'
          rw [storeRead_cons, if_neg (by omega), storeRead_below hm'.2.2.2 (by omega), storeRead_cons,
            if_pos rfl] at hk
          exact absurd hk.symm hn'.2.2.1
      subst hkk
      have hw : w = w' := by simpa [storeRead_cons] using h k
      subst hw
      rw [ih hm'.2.2.2 hn'.2.2.2]
      intro a
      rcases Nat.lt_or_ge k a with hlt | hge
      · simpa [storeRead_cons, show ¬ k = a by omega] using h a
      · rw [storeRead_below hm'.2.2.2 (by omega), storeRead_below hn'.2.2.2 (by omega)]

end Sys2Proof.Machine
end

