-- ==== Sys2Proof/Laws/Memory.lean ====
section
/-! SUPPORT. The banks and the drum fields: what an access reaches, what a read gives after a write, and that every
operation keeps the canonical form. -/

namespace Sys2Proof.Machine

/-! ## Slots -/

theorem bankSize_pos (b : Bank) : 0 < bankSize b := by cases b <;> decide

theorem slotOf_lt (b : Bank) (a : Int) : slotOf b a < bankSize b := by
  have h := bankSize_pos b
  have h1 := Int.emod_lt_of_pos a (show (0 : Int) < bankSize b by omega)
  have h2 := Int.emod_nonneg a (show (bankSize b : Int) ≠ 0 by omega)
  unfold slotOf
  omega

/-- A slot number is its own slot: reducing twice changes nothing (R69). -/
theorem slotOf_of_lt {b : Bank} {n : Nat} (h : n < bankSize b) : slotOf b (n : Int) = n := by
  unfold slotOf
  rw [Int.emod_eq_of_lt (by omega) (by omega)]
  simp

@[simp] theorem slotOf_slotOf (b : Bank) (a : Int) : slotOf b (slotOf b a : Int) = slotOf b a :=
  slotOf_of_lt (slotOf_lt b a)

theorem effAddr_lt (xs : IndexSel) (b : Bank) (a : Addr) (s : State) : effAddr xs b a s < bankSize b :=
  slotOf_lt b _

@[simp] theorem slotOf_effAddr (xs : IndexSel) (b : Bank) (a : Addr) (s : State) :
    slotOf b (effAddr xs b a s : Int) = effAddr xs b a s :=
  slotOf_slotOf b _

@[simp] theorem slotOf_plainAddr (b : Bank) (a : Addr) : slotOf b (plainAddr b a : Int) = plainAddr b a :=
  slotOf_slotOf b _

theorem fieldSlot_lt (a : Int) : fieldSlot a < Config.fieldSize := by
  have h : (0 : Int) < Config.fieldSize := by decide
  have h1 := Int.emod_lt_of_pos a h
  have h2 := Int.emod_nonneg a (show (Config.fieldSize : Int) ≠ 0 by omega)
  unfold fieldSlot
  omega

theorem fieldSlot_of_lt {n : Nat} (h : n < Config.fieldSize) : fieldSlot (n : Int) = n := by
  unfold fieldSlot
  rw [Int.emod_eq_of_lt (by omega) (by omega)]
  simp

@[simp] theorem fieldSlot_fieldSlot (a : Int) : fieldSlot (fieldSlot a : Int) = fieldSlot a :=
  fieldSlot_of_lt (fieldSlot_lt a)

/-! ## Banks -/

@[simp] theorem bankOf_setBank_self (m : Memory) (b : Bank) (st : Store) : bankOf (setBank m b st) b = st := by
  cases b <;> rfl

theorem bankOf_setBank_of_ne (m : Memory) {b b' : Bank} (st : Store) (h : b' ≠ b) :
    bankOf (setBank m b st) b' = bankOf m b' := by
  cases b <;> cases b' <;> first | rfl | exact absurd rfl h

theorem memory_wf_iff (m : Memory) : m.wf = true ↔ ∀ b, storeWf (bankSize b) (bankOf m b) = true := by
  constructor
  · intro h b
    have h' := (Bool.and_eq_true _ _).mp h
    cases b
    · exact h'.1
    · exact h'.2
  · intro h
    exact (Bool.and_eq_true _ _).mpr ⟨h .bank1, h .bank2⟩

/-- Replacing a bank by a store in canonical form keeps the memory in canonical form. -/
theorem setBank_wf {m : Memory} (h : m.wf = true) {b : Bank} {st : Store} (hs : storeWf (bankSize b) st = true) :
    (setBank m b st).wf = true := by
  rw [memory_wf_iff] at h ⊢
  intro b'
  by_cases hb : b' = b
  · subst hb
    rwa [bankOf_setBank_self]
  · rw [bankOf_setBank_of_ne m st hb]
    exact h b'

/-- A read after a write, on memory in canonical form: the word written in the slot written, every other slot of both
banks as before (R62, R63). -/
theorem memRead_write {s : State} (h : s.mem.wf = true) (b : Bank) (a : Int) (v : Word) (b' : Bank) (a' : Int) :
    memRead b' a' { s with mem := setBank s.mem b (storeWrite (bankOf s.mem b) (slotOf b a) v) } =
      if b' = b ∧ slotOf b' a' = slotOf b a then v else memRead b' a' s := by
  unfold memRead
  by_cases hb : b' = b
  · subst hb
    simp only [bankOf_setBank_self, true_and]
    exact storeRead_storeWrite ((memory_wf_iff _).1 h b') _ _ _
  · simp only [hb, false_and, if_false]
    rw [bankOf_setBank_of_ne _ _ hb]

theorem memWrite_wf {s : State} (h : s.mem.wf = true) (b : Bank) (a : Int) (v : Word) :
    (memWrite b a v s).mem.wf = true :=
  setBank_wf h (storeWrite_wf ((memory_wf_iff _).1 h b) (slotOf_lt b a) v)

/-- Reading memory depends on the memory alone. -/
theorem memRead_congr {s t : State} (h : s.mem = t.mem) (b : Bank) (a : Int) : memRead b a s = memRead b a t := by
  unfold memRead
  rw [h]

/-! ## Drum fields -/

@[simp] theorem drumField_setDrumField_self (d : Drum) (f : Field) (st : Store) :
    drumField (setDrumField d f st) f = st := by cases f <;> rfl

theorem drumField_setDrumField_of_ne (d : Drum) {f f' : Field} (st : Store) (h : f' ≠ f) :
    drumField (setDrumField d f st) f' = drumField d f' := by
  cases f <;> cases f' <;> first | rfl | exact absurd rfl h

theorem drum_wf_iff (d : Drum) : d.wf = true ↔ ∀ f, storeWf Config.fieldSize (drumField d f) = true := by
  simp only [Drum.wf, Bool.and_eq_true, and_assoc]
  constructor
  · rintro ⟨h0, h1, h2, h3, h4, h5⟩ f
    cases f <;> assumption
  · intro h
    exact ⟨h .lri, h .gfi, h .xtl, h .sdf, h .log, h .tmp⟩

theorem setDrumField_wf {d : Drum} (h : d.wf = true) {f : Field} {st : Store}
    (hs : storeWf Config.fieldSize st = true) : (setDrumField d f st).wf = true := by
  rw [drum_wf_iff] at h ⊢
  intro f'
  by_cases hf : f' = f
  · subst hf
    rwa [drumField_setDrumField_self]
  · rw [drumField_setDrumField_of_ne d st hf]
    exact h f'

theorem writeField_wf {s : State} (h : s.drum.wf = true) (f : Field) (a : Int) (w : Word) :
    (writeField f a w s).drum.wf = true :=
  setDrumField_wf h (storeWrite_wf ((drum_wf_iff _).1 h f) (fieldSlot_lt a) w)

/-- What a slot of a drum in canonical form holds after one slot of one field is replaced. -/
theorem drumRead_write {d : Drum} (h : d.wf = true) (f : Field) (o : Nat) (w : Word) (f' : Field) (o' : Nat) :
    storeRead (drumField (setDrumField d f (storeWrite (drumField d f) o w)) f') o' =
      if f' = f ∧ o' = o then w else storeRead (drumField d f') o' := by
  by_cases hf : f' = f
  · subst hf
    simp only [drumField_setDrumField_self, true_and]
    exact storeRead_storeWrite ((drum_wf_iff _).1 h f') _ _ _
  · simp only [hf, false_and, if_false]
    rw [drumField_setDrumField_of_ne _ _ hf]

/-! ## The state after reset -/

theorem reset_mem_wf : State.reset.mem.wf = true := by decide

theorem reset_drum_wf : State.reset.drum.wf = true := by decide

end Sys2Proof.Machine
end

