-- ==== Sys2Proof/Laws/Devices.lean ====
section
/-! SUPPORT. The status channels, the light gun and the I/O map: what each shared operation can do. -/

namespace Sys2Proof.Machine

/-! ## Channel flags -/

@[simp] theorem chanFlag_setChanFlag_self (c : Channels) (f : Field) (v : Bool) :
    chanFlag (setChanFlag c f v) f = v := by cases f <;> rfl

theorem chanFlag_setChanFlag (c : Channels) (f f' : Field) (v : Bool) :
    chanFlag (setChanFlag c f v) f' = if f' = f then v else chanFlag c f' := by
  cases f <;> cases f' <;> rfl

@[simp] theorem checkStatus_field (f : Field) (s : State) : checkStatus (.field f) s = chanFlag s.chan f := rfl

@[simp] theorem checkStatus_lg (s : State) : checkStatus .lg s = s.lg.flash := rfl

/-! ## The light gun -/

@[simp] theorem lgConsume_flash (g : LightGun) : (lgConsume g).flash = false := by
  unfold lgConsume
  split
  · rfl
  · next h => simpa using h

@[simp] theorem lgConsume_armed (g : LightGun) : (lgConsume g).armed = (g.armed && !g.flash) := by
  unfold lgConsume
  split
  · next h => simp [h]
  · next h => simp [h]

@[simp] theorem lgConsume_tx (g : LightGun) : (lgConsume g).tx = g.tx := by unfold lgConsume; split <;> rfl

@[simp] theorem lgConsume_ty (g : LightGun) : (lgConsume g).ty = g.ty := by unfold lgConsume; split <;> rfl

@[simp] theorem lgConsume_hit (g : LightGun) : (lgConsume g).hit = g.hit := by unfold lgConsume; split <;> rfl

theorem lgConsume_legal (g : LightGun) : (lgConsume g).legal = true := by simp [LightGun.legal]

theorem lgArm_legal (x y : Config.Coord) (g : LightGun) : (lgArm x y g).legal = true := rfl

/-- Everything `draw_event` can do: the first match while Armed, or nothing. -/
theorem lgDrawWith_cases (r : Nat) (c : Config.CandId) (x y : Config.Coord) (g : LightGun) :
    (g.armed = true ∧ g.flash = false ∧ withinSq r g x y = true ∧
      lgDrawWith r c x y g = ({ g with flash := true, hit := c }, true)) ∨ lgDrawWith r c x y g = (g, false) := by
  unfold lgDrawWith
  split
  · next h =>
    simp only [Bool.and_eq_true, Bool.not_eq_true'] at h
    exact .inl ⟨h.1.1, h.1.2, h.2, rfl⟩
  · exact .inr rfl

theorem lgDraw_legal {g : LightGun} (h : g.legal = true) (c : Config.CandId) (x y : Config.Coord) :
    (lgDraw c x y g).1.legal = true := by
  unfold lgDraw
  rcases lgDrawWith_cases Config.lgRadiusSq c x y g with ⟨ha, _, _, he⟩ | he
  · rw [he]
    simp [LightGun.legal, ha]
  · rw [he]
    exact h

/-- The bound the spec gives of the radius (R293), all that is known of it. -/
theorem lgRadiusSq_bounds : 2 ≤ Config.lgRadiusSq ∧ Config.lgRadiusSq < 3200 := by
  have h := Config.lgRadiusSlack.isLt
  unfold Config.lgRadiusSq
  omega

/-! ## `clear_status` and writes to STATUS -/

theorem clearGun_legal (c : Channel) {g : LightGun} (h : g.legal = true) : (clearGun c g).legal = true := by
  cases c
  · exact h
  · exact lgConsume_legal g

theorem clearChannels_legal (v : Word) (cs : List Channel) {s : State} (h : s.lg.legal = true) :
    (clearChannels v cs s).lg.legal = true := by
  induction cs generalizing s with
  | nil => exact h
  | cons c cs ih =>
    rw [clearChannels]
    refine ih ?_
    split
    · exact clearGun_legal c h
    · exact h

theorem writeStatus_legal (v : Word) {s : State} (h : s.lg.legal = true) : (writeStatus v s).lg.legal = true :=
  clearChannels_legal v allChannels h

@[simp] theorem setChanFlag_chanFlag (c : Channels) (f : Field) : setChanFlag c f (chanFlag c f) = c := by
  cases f <;> rfl

/-- One bit of a word written to STATUS, at a field's channel. -/
theorem clearStatus_field_if (f : Field) (v : Bool) (s : State) :
    (if v then clearStatus (.field f) s else s) =
      { s with chan := setChanFlag s.chan f (chanFlag s.chan f && !v) } := by
  cases v
  · simp
  · rw [if_pos rfl, Bool.not_true, Bool.and_false]
    rfl

/-- One bit of a word written to STATUS, at channel 6. -/
theorem clearStatus_lg_if (v : Bool) (s : State) :
    (if v then clearStatus .lg s else s) = { s with lg := if v then lgConsume s.lg else s.lg } := by
  cases v <;> rfl

/-- Everything a write to STATUS does: each channel keeps its flag where its bit of the word is 0 and loses it where the
bit is 1, channel 6 by consuming a pending flash (R280, R296). -/
theorem writeStatus_eq (v : Word) (s : State) :
    writeStatus v s = { s with
      chan :=
        ⟨s.chan.lri && !v.getLsbD 0, s.chan.gfi && !v.getLsbD 1, s.chan.xtl && !v.getLsbD 2,
          s.chan.sdf && !v.getLsbD 3, s.chan.log && !v.getLsbD 4, s.chan.tmp && !v.getLsbD 5⟩
      lg := if v.getLsbD 6 then lgConsume s.lg else s.lg } := by
  simp only [writeStatus, allChannels, clearChannels, clearStatus_field_if, clearStatus_lg_if]
  rfl

/-! ## The I/O map -/

/-- The I/O map by ranges of the I/O address (20_memory.md R72). -/
theorem ioDecode_eq (x : Addr) : ioDecode x =
    if x.toNat < 0x1000 then .field .lri x.toNat
    else if x.toNat < 0x2000 then .field .gfi (x.toNat - 0x1000)
    else if x.toNat < 0x3000 then .field .xtl (x.toNat - 0x2000)
    else if x.toNat < 0x4000 then .field .sdf (x.toNat - 0x3000)
    else if x.toNat < 0x5000 then .field .log (x.toNat - 0x4000)
    else if x.toNat < 0x6000 then .field .tmp (x.toNat - 0x5000)
    else if x.toNat = 0x7000 then .status
    else if x.toNat = 0x7001 then .clock
    else .unmapped := by
  have hx := x.isLt
  have h1 : (x.extractLsb' 0 12).toNat = x.toNat % 4096 := by simp
  have h2 : (x.extractLsb' 12 3).toNat = x.toNat / 4096 := by
    simp [Nat.shiftRight_eq_div_pow]
    omega
  have h3 : fieldSlot ((x.toNat % 4096 : Nat) : Int) = x.toNat % 4096 :=
    fieldSlot_of_lt (Nat.mod_lt _ (by decide))
  unfold ioDecode
  simp only [h1, h2, h3]
  have hq8 : x.toNat / 4096 < 8 := by omega
  have hm := Nat.div_add_mod x.toNat 4096
  have hr : x.toNat % 4096 < 4096 := Nat.mod_lt _ (by decide)
  generalize x.toNat / 4096 = q at *
  generalize x.toNat % 4096 = r at *
  interval_cases q
  · show IoTarget.field .lri r = _
    rw [if_pos (by omega), show r = x.toNat by omega]
  · show IoTarget.field .gfi r = _
    rw [if_neg (by omega), if_pos (by omega), show r = x.toNat - 0x1000 by omega]
  · show IoTarget.field .xtl r = _
    rw [if_neg (by omega), if_neg (by omega), if_pos (by omega), show r = x.toNat - 0x2000 by omega]
  · show IoTarget.field .sdf r = _
    iterate 3 rw [if_neg (by omega)]
    rw [if_pos (by omega), show r = x.toNat - 0x3000 by omega]
  · show IoTarget.field .log r = _
    iterate 4 rw [if_neg (by omega)]
    rw [if_pos (by omega), show r = x.toNat - 0x4000 by omega]
  · show IoTarget.field .tmp r = _
    iterate 5 rw [if_neg (by omega)]
    rw [if_pos (by omega), show r = x.toNat - 0x5000 by omega]
  · show IoTarget.unmapped = _
    iterate 8 rw [if_neg (by omega)]
  · show (if r = 0 then IoTarget.status else if r = 1 then IoTarget.clock else IoTarget.unmapped) = _
    rcases Nat.lt_or_ge r 2 with h | h
    · interval_cases r
      · rw [if_pos rfl]
        iterate 6 rw [if_neg (by omega)]
        rw [if_pos (by omega)]
      · rw [if_neg (by decide), if_pos rfl]
        iterate 7 rw [if_neg (by omega)]
        rw [if_pos (by omega)]
    · iterate 10 rw [if_neg (by omega)]

/-- What an I/O access can reach in state `s`: everything `ioRead` can answer. -/
theorem ioRead_cases (ioa : Addr) (s : State) :
    (∃ f o, ioDecode ioa = .field f o ∧ ioRead ioa s = some (readField f (o : Int) s)) ∨
    (ioDecode ioa = .status ∧ ioRead ioa s = some (statusWord s)) ∨
    (ioDecode ioa = .clock ∧ ioRead ioa s = some (clockWord s)) ∨
    (ioDecode ioa = .unmapped ∧ ioRead ioa s = none) := by
  unfold ioRead
  cases ioDecode ioa with
  | field f o => exact .inl ⟨f, o, rfl, rfl⟩
  | status => exact .inr (.inl ⟨rfl, rfl⟩)
  | clock => exact .inr (.inr (.inl ⟨rfl, rfl⟩))
  | unmapped => exact .inr (.inr (.inr ⟨rfl, rfl⟩))

/-- Everything `ioWrite` can do. -/
theorem ioWrite_cases (ioa : Addr) (v : Word) (s : State) :
    (∃ f o, ioDecode ioa = .field f o ∧ ioWrite ioa v s = some (writeField f (o : Int) v s)) ∨
    (ioDecode ioa = .status ∧ ioWrite ioa v s = some (writeStatus v s)) ∨
    (ioDecode ioa = .clock ∧ ioWrite ioa v s = some s) ∨
    (ioDecode ioa = .unmapped ∧ ioWrite ioa v s = none) := by
  unfold ioWrite
  cases ioDecode ioa with
  | field f o => exact .inl ⟨f, o, rfl, rfl⟩
  | status => exact .inr (.inl ⟨rfl, rfl⟩)
  | clock => exact .inr (.inr (.inl ⟨rfl, rfl⟩))
  | unmapped => exact .inr (.inr (.inr ⟨rfl, rfl⟩))

end Sys2Proof.Machine
end

