-- ==== Sys2Proof/Laws/Encoding.lean ====
section
/-! SUPPORT. The bit-field helpers of the decoder and the encoder. -/

namespace Sys2Proof

@[simp] theorem bankOfBit_bankBit (b : Bank) : bankOfBit (bankBit b) = b := by cases b <;> rfl

theorem bankBit_bankOfBit : ∀ v : BitVec 1, bankBit (bankOfBit v) = v := by decide

@[simp] theorem indexSelOfBits_indexSelBits (xs : IndexSel) : indexSelOfBits (indexSelBits xs) = xs := by
  cases xs <;> rfl

theorem indexSelBits_indexSelOfBits : ∀ v : BitVec 2, indexSelBits (indexSelOfBits v) = v := by decide

theorem decode_eq (w : Word) : decode w = dispatchFields (decodeFields w) := rfl

/-- The ignored bits of a canonical word are 0: bit 31 and bits 21:16 (R108). -/
theorem encodeFields_ignored_bits (f : Fields) :
    (encodeFields f).extractLsb' 31 1 = 0#1 ∧ (encodeFields f).extractLsb' 16 6 = 0#6 := by
  unfold encodeFields
  constructor <;> (ext i hi; simp; try interval_cases i <;> simp)

end Sys2Proof
end

