-- ==== Sys2Proof/Laws/Halves.lean ====
section
/-! SUPPORT. A word and its two halves. -/

namespace Sys2Proof.Machine

@[simp] theorem leftHalf_join (l r : Half) : leftHalf (join l r) = l :=
  BitVec.extractLsb'_append_eq_left

@[simp] theorem rightHalf_join (l r : Half) : rightHalf (join l r) = r := by
  unfold rightHalf join
  rw [BitVec.extractLsb'_append_eq_of_add_le (by omega)]
  exact BitVec.extractLsb'_eq_self

/-- A word is the join of its halves. -/
@[simp] theorem join_halves (w : Word) : join (leftHalf w) (rightHalf w) = w := by
  apply BitVec.eq_of_getLsbD_eq
  intro i hi
  simp only [leftHalf, rightHalf, join, BitVec.getLsbD_append, BitVec.getLsbD_extractLsb']
  by_cases h : i < 16
  · simp [h]
  · simp [h, show i - 16 < 16 by omega, show 16 + (i - 16) = i by omega]

end Sys2Proof.Machine
end

