-- ==== Sys2Proof/Laws/HostPort.lean ====
section
/-! SUPPORT. What the loading of a program and a host operation can do. -/

namespace Sys2Proof.Machine

/-- Loading words changes the memory and nothing else. -/
theorem loadWords_eq (b : Bank) (ws : List Word) (a : Int) (s : State) :
    loadWords b ws a s = { s with mem := (loadWords b ws a s).mem } := by
  induction ws generalizing a s with
  | nil => rfl
  | cons w ws ih =>
    rw [loadWords, ih]
    rfl

/-- Loading words keeps the memory in canonical form. -/
theorem loadWords_wf (b : Bank) (ws : List Word) (a : Int) {s : State} (h : s.mem.wf = true) :
    (loadWords b ws a s).mem.wf = true := by
  induction ws generalizing a s with
  | nil => exact h
  | cons w ws ih => exact ih (a + 1) (memWrite_wf h b a w)

/-- The pulses of an elapsed time, with the rate of the clock as a number (R2, R318). -/
theorem ticksOf_eq (e : Rat) : ticksOf e = (e * 32).floor.toNat := rfl

end Sys2Proof.Machine
end

