-- ==== Sys2Proof/Laws/PerInstr.lean ====
section
/-! SUPPORT. The family of statements made for every instruction. -/

namespace Sys2Proof.Laws.CanonicalEncoding

open Sys2Proof

/-- The encoder writes the canonical word: bits 31 and 21:16 zero (30_encoding.md R103, R108). -/
def Statement (i : Instr) : Prop :=
  (encode i).extractLsb' 31 1 = 0#1 ∧ (encode i).extractLsb' 16 6 = 0#6

theorem hlt : Statement .hlt := encodeFields_ignored_bits _
theorem lda (xs : IndexSel) (b : Bank) (a : Addr) : Statement (.lda xs b a) := encodeFields_ignored_bits _
theorem add (xs : IndexSel) (b : Bank) (a : Addr) : Statement (.add xs b a) := encodeFields_ignored_bits _
theorem sub (xs : IndexSel) (b : Bank) (a : Addr) : Statement (.sub xs b a) := encodeFields_ignored_bits _
theorem mul (xs : IndexSel) (b : Bank) (a : Addr) : Statement (.mul xs b a) := encodeFields_ignored_bits _
theorem sto (xs : IndexSel) (b : Bank) (a : Addr) : Statement (.sto xs b a) := encodeFields_ignored_bits _
theorem stl (xs : IndexSel) (b : Bank) (a : Addr) : Statement (.stl xs b a) := encodeFields_ignored_bits _
theorem str (xs : IndexSel) (b : Bank) (a : Addr) : Statement (.str xs b a) := encodeFields_ignored_bits _
theorem shlb (n : Addr) : Statement (.shlb n) := encodeFields_ignored_bits _
theorem shll (n : Addr) : Statement (.shll n) := encodeFields_ignored_bits _
theorem shlr (n : Addr) : Statement (.shlr n) := encodeFields_ignored_bits _
theorem shrb (n : Addr) : Statement (.shrb n) := encodeFields_ignored_bits _
theorem shrl (n : Addr) : Statement (.shrl n) := encodeFields_ignored_bits _
theorem shrr (n : Addr) : Statement (.shrr n) := encodeFields_ignored_bits _
theorem jmp (xs : IndexSel) (b : Bank) (a : Addr) : Statement (.jmp xs b a) := encodeFields_ignored_bits _
theorem bnz (xs : IndexSel) (b : Bank) (a : Addr) : Statement (.bnz xs b a) := encodeFields_ignored_bits _
theorem bze (xs : IndexSel) (b : Bank) (a : Addr) : Statement (.bze xs b a) := encodeFields_ignored_bits _
theorem tix (xs : IndexSel) (b : Bank) (a : Addr) : Statement (.tix xs b a) := encodeFields_ignored_bits _
theorem jsr (xs : IndexSel) (b : Bank) (a : Addr) : Statement (.jsr xs b a) := encodeFields_ignored_bits _
theorem ret (xs : IndexSel) (b : Bank) (a : Addr) : Statement (.ret xs b a) := encodeFields_ignored_bits _
theorem rdf (xs : IndexSel) (a : Addr) : Statement (.rdf xs a) := encodeFields_ignored_bits _
theorem wrf (xs : IndexSel) (a : Addr) : Statement (.wrf xs a) := encodeFields_ignored_bits _
theorem ldx (xs : IndexSel) (b : Bank) (a : Addr) : Statement (.ldx xs b a) := encodeFields_ignored_bits _
theorem clx (xs : IndexSel) : Statement (.clx xs) := encodeFields_ignored_bits _

end Sys2Proof.Laws.CanonicalEncoding
end

