-- ==== Sys2Proof/Laws/Step.lean ====
section
/-! SUPPORT. What a step can do, said once. -/

namespace Sys2Proof.Machine

@[simp] theorem countStep_next (s : State) : countStep (.next s) = .next (countUp s) := rfl

/-- A counted outcome that answers a next state comes from one that did. -/
theorem countStep_eq_next {o : Host.Outcome State Fault Refusal} {t : State} (h : countStep o = .next t) :
    ∃ u, o = .next u ∧ t = countUp u := by
  cases o with
  | next u => exact ⟨u, rfl, by injection h with h; exact h.symm⟩
  | fault r => cases h
  | refused r => cases h

theorem step_halted {s : State} (h : s.running = false) : step s = .next s := by
  simp [step, cycle, h]

theorem step_running_instr {s : State} {i : Instr} (h : s.running = true) (hd : decode (fetchWord s) = .instr i) :
    step s = countStep (exec i s) := by
  unfold step cycle
  rw [if_pos h, hd]

theorem step_running_unrecognised {s : State} {c : BitVec 3} {o : BitVec 4} (h : s.running = true)
    (hd : decode (fetchWord s) = .unrecognised c o) : step s = .next (countUp (implicitHalt s)) := by
  unfold step cycle
  rw [if_pos h, hd]
  rfl

/-- Everything a step that answers a next state can have done: nothing in the Halted state; else one counted
instruction, or the implicit halt of a word the opcode map does not name. -/
theorem step_cases {s t : State} (h : step s = .next t) :
    (s.running = false ∧ t = s) ∨
    (s.running = true ∧ ∃ i u, decode (fetchWord s) = .instr i ∧ exec i s = .next u ∧ t = countUp u) ∨
    (s.running = true ∧ ∃ c o, decode (fetchWord s) = .unrecognised c o ∧ t = countUp (implicitHalt s)) := by
  cases hr : s.running with
  | false =>
    rw [step_halted hr] at h
    injection h with h
    exact .inl ⟨rfl, h.symm⟩
  | true =>
    cases hd : decode (fetchWord s) with
    | instr i =>
      rw [step_running_instr hr hd] at h
      obtain ⟨u, hu, ht⟩ := countStep_eq_next h
      exact .inr (.inl ⟨rfl, i, u, rfl, hu, ht⟩)
    | unrecognised c o =>
      rw [step_running_unrecognised hr hd] at h
      injection h with h
      exact .inr (.inr ⟨rfl, c, o, rfl, h.symm⟩)

/-- A run of one step more goes on from where the first step leads. -/
theorem core_run_succ {s u : State} (h : step s = .next u) (k : Nat) :
    Sys2Proof.core.run (k + 1) s = Sys2Proof.core.run k u := by
  have h' : Sys2Proof.core.step s = .next u := h
  simp only [Host.Core.run, h']

/-- Everything TIX can do: halt with no register named, or decrement and branch or fall through (R243). -/
theorem execTix_cases (xs : IndexSel) (b : Bank) (a : Addr) (s : State) :
    (ixRead? xs s = none ∧ execTix xs b a s = .next (implicitHalt s)) ∨
    (∃ old, ixRead? xs s = some old ∧ 0 < (old - 1#16).toInt ∧
      execTix xs b a s = .next (branchTo b (plainAddr b a) (setIx xs (old - 1#16) s))) ∨
    (∃ old, ixRead? xs s = some old ∧ ¬ 0 < (old - 1#16).toInt ∧
      execTix xs b a s = .next (advance (setIx xs (old - 1#16) s))) := by
  unfold execTix
  cases h : ixRead? xs s with
  | none => exact .inl ⟨rfl, rfl⟩
  | some old =>
    by_cases hp : 0 < (old - 1#16).toInt
    · exact .inr (.inl ⟨old, rfl, hp, congrArg _ (if_pos hp)⟩)
    · exact .inr (.inr ⟨old, rfl, hp, congrArg _ (if_neg hp)⟩)

/-- Everything RDF can do: load the accumulator or halt (R250). -/
theorem execRdf_cases (xs : IndexSel) (a : Addr) (s : State) :
    (∃ v, ioRead (ioAddr xs a s) s = some v ∧ execRdf xs a s = .next (advance (setAcc v s))) ∨
    (ioRead (ioAddr xs a s) s = none ∧ execRdf xs a s = .next (implicitHalt s)) := by
  unfold execRdf
  cases ioRead (ioAddr xs a s) s with
  | none => exact .inr ⟨rfl, rfl⟩
  | some v => exact .inl ⟨v, rfl, rfl⟩

/-- Everything WRF can do: write the I/O space or halt (R251). -/
theorem execWrf_cases (xs : IndexSel) (a : Addr) (s : State) :
    (∃ t, ioWrite (ioAddr xs a s) s.acc s = some t ∧ execWrf xs a s = .next (advance t)) ∨
    (ioWrite (ioAddr xs a s) s.acc s = none ∧ execWrf xs a s = .next (implicitHalt s)) := by
  unfold execWrf
  cases ioWrite (ioAddr xs a s) s.acc s with
  | none => exact .inr ⟨rfl, rfl⟩
  | some t => exact .inl ⟨t, rfl, rfl⟩

/-- An index select that names a register reads one. -/
theorem ixRead?_isSome_iff (xs : IndexSel) (s : State) : (ixRead? xs s).isSome = xs.namesRegister := by
  cases xs <;> rfl

end Sys2Proof.Machine
end

