-- ==== Sys2Proof/Tests/Slice0.lean ====
section
/-! SUPPORT. The model's own tests. Expected values come from the worked examples of the instruction rules and from
95_test_vectors.md, whose section is named at each group; a word written in binary is laid out by hand from the pattern
of R102, most significant bit first: ignored, class, opcode, index select, reserved, bank, address. -/

namespace Sys2Proof.Tests

open Sys2Proof Sys2Proof.Machine

/-! ## Helpers -/

/-- A Running core at offset `pc` of bank 1 with accumulator `acc` and blank memory. -/
def core (pc : Addr) (acc : Word) : State :=
  { State.reset with running := true, pc := pc, acc := acc }

/-- The next state, where there is one. -/
def nextOf : Host.Outcome State Fault Refusal → Option State
  | .next s => some s
  | .fault _ => none
  | .refused _ => none

/-- The state after one step that fetches the word `w`. -/
def afterWord (w : Nat) (s : State) : Option State :=
  nextOf (step (s.withFetchWord 32 w))

/-- The program counter and its bank after one step that fetches the word `w`. -/
def pcAfter (w : Nat) (s : State) : Option (Addr × Bank) :=
  (afterWord w s).map fun t => (t.pc, t.pcBank)

/-- The accumulator after one step that fetches the word `w`. -/
def accAfter (w : Nat) (s : State) : Option Word :=
  (afterWord w s).map State.acc

/-- Whether the core runs, and its program counter, after one step that fetches the word `w`. -/
def runAfter (w : Nat) (s : State) : Option (Bool × Addr) :=
  (afterWord w s).map fun t => (t.running, t.pc)

/-- A state with one index register set. -/
def withIx (xs : IndexSel) (v : IxWord) (s : State) : State := setIx xs v s

/-- A state with one word of bank 1 set. -/
def withWord (a : Int) (v : Word) (s : State) : State := memWrite .bank1 a v s

/-! ## Decoding: every constructor, from a word written out bit by bit (R102, R106) -/

theorem test_decode_hlt : decode 0b0_000_0000_00_000000_0_000000000000000#32 = .instr .hlt := by decide
theorem test_decode_lda : decode 0b0_001_0000_00_000000_0_000000001100100#32 = .instr (.lda .none .bank1 100) := by decide
theorem test_decode_add : decode 0b0_001_0001_11_000000_1_000000001100100#32 = .instr (.add .x2 .bank2 100) := by decide
theorem test_decode_sub : decode 0b0_010_0000_00_000000_0_000000001100101#32 = .instr (.sub .none .bank1 101) := by decide
theorem test_decode_mul : decode 0b0_011_0000_00_000000_1_000000000100000#32 = .instr (.mul .none .bank2 32) := by decide
theorem test_decode_sto : decode 0b0_100_0000_00_000000_0_000000001100111#32 = .instr (.sto .none .bank1 103) := by decide
theorem test_decode_stl : decode 0b0_100_0001_10_000000_0_000000001101000#32 = .instr (.stl .x1 .bank1 104) := by decide
theorem test_decode_str : decode 0b0_100_0010_00_000000_1_001000000000100#32 = .instr (.str .none .bank2 4100) := by decide
theorem test_decode_shlb : decode 0b0_101_0000_11_000000_1_000000000000001#32 = .instr (.shlb 1) := by decide
theorem test_decode_shll : decode 0b0_101_0001_00_000000_0_000000000000100#32 = .instr (.shll 4) := by decide
theorem test_decode_shlr : decode 0b0_101_0010_00_000000_0_000000000000100#32 = .instr (.shlr 4) := by decide
theorem test_decode_shrb : decode 0b0_101_0011_00_000000_0_111111111111111#32 = .instr (.shrb 32767) := by decide
theorem test_decode_shrl : decode 0b0_101_0100_00_000000_0_000000000000100#32 = .instr (.shrl 4) := by decide
theorem test_decode_shrr : decode 0b0_101_0101_00_000000_0_000000000000100#32 = .instr (.shrr 4) := by decide
theorem test_decode_jmp : decode 0b0_110_0000_00_000000_1_000000000000101#32 = .instr (.jmp .none .bank2 5) := by decide
theorem test_decode_bnz : decode 0b0_110_0001_00_000000_0_000000000000111#32 = .instr (.bnz .none .bank1 7) := by decide
theorem test_decode_bze : decode 0b0_110_0010_00_000000_0_000000000000111#32 = .instr (.bze .none .bank1 7) := by decide
theorem test_decode_tix : decode 0b0_110_0011_01_000000_0_000000000001010#32 = .instr (.tix .x0 .bank1 10) := by decide
theorem test_decode_jsr : decode 0b0_110_0100_00_000000_1_111111111111111#32 = .instr (.jsr .none .bank2 32767) := by decide
theorem test_decode_ret : decode 0b0_110_0101_00_000000_0_000000001000000#32 = .instr (.ret .none .bank1 64) := by decide
theorem test_decode_rdf : decode 0b0_111_0000_10_000000_1_000000000000000#32 = .instr (.rdf .x1 0) := by decide
theorem test_decode_wrf : decode 0b0_111_0001_00_000000_0_111000000000000#32 = .instr (.wrf .none 0x7000) := by decide
theorem test_decode_ldx : decode 0b0_111_0010_11_000000_0_000000011001001#32 = .instr (.ldx .x2 .bank1 201) := by decide
theorem test_decode_clx : decode 0b0_111_0011_10_000000_1_111111111111111#32 = .instr (.clx .x1) := by decide

/-- The ignored bits 31 and 21:16 (95, section 2.11: `0x903F0064` is `LDA 100`). -/
theorem test_decode_ignored_bits : decode 0b1_001_0000_00_111111_0_000000001100100#32 = .instr (.lda .none .bank1 100) := by
  decide

/-- Unrecognised pairs, by their numbers (95, section 2.11). -/
theorem test_decode_unrecognised :
    decode 0x1F000000#32 = .unrecognised 1 15 ∧ decode 0x7FFFFFFF#32 = .unrecognised 7 15 ∧
      decode 0x56000000#32 = .unrecognised 5 6 := by decide

/-- `encode(decode(0x903F0064)) = 0x10000064` (95, section 2.11). -/
theorem test_encode_canonical : encode (.lda .none .bank1 100) = 0x10000064#32 := by decide

/-- The words of programs P2 and P5, encoded (95, section 3). -/
theorem test_encode_program_words :
    encode (.ldx .x0 .bank1 50) = 0x72400032#32 ∧ encode (.add .x0 .bank1 99) = 0x11400063#32 ∧
      encode (.str .none .bank2 4100) = 0x42009004#32 ∧ encode (.clx .x1) = 0x73800000#32 := by decide

/-! ## Well-formedness: the check and the terms it refuses (R107, R110) -/

theorem test_wellFormed_refuses_tix : (Instr.tix .none .bank1 16).wellFormed = false := by decide
theorem test_wellFormed_refuses_ldx : (Instr.ldx .none .bank1 200).wellFormed = false := by decide
theorem test_wellFormed_refuses_clx : (Instr.clx .none).wellFormed = false := by decide

/-! ## The arithmetic unit (95, sections 2.1 to 2.5) -/

theorem test_add1c : add1c 0xFFFE 0x0002 = 0x0001 ∧ add1c 0xFFFF 0xFFFF = 0xFFFF ∧ add1c 0x7FFF 0x0001 = 0x8000 ∧
    add1c 0xFFFD 0xFFFE = 0xFFFC := by decide
theorem test_asr1 : asr1 0x8001 = 0xC000 ∧ asr1 0xFFFD = 0xFFFE ∧ asr1 0x0003 = 0x0001 := by decide
theorem test_mul1c : mul1c 0x4000 0xBFFF = 0xDFFF ∧ mul1c 0x0000 0x8000 = 0xFFFF ∧ mul1c 0xFFFF 0xFFFF = 0x0000 ∧
    mul1c 0x7FFF 0x8000 = 0x8001 ∧ mul1c 0xFFFC 0x4000 = 0xFFFE ∧ mul1c 0x3333 0x2666 = 0x0F5B := by decide
theorem test_frac : frac 0x3999 = 14745 / 32768 ∧ frac 0x8000 = -(32767 / 32768) ∧ frac 0xFFFF = 0 := by decide +kernel
theorem test_fromFraction : fromFraction (3 / 10) = 0x2666 ∧ fromFraction (-(3 / 10)) = 0xD999 ∧
    fromFraction (-(1 / 65536)) = 0xFFFF ∧ fromFraction (32769 / 32768) = 0x7FFF ∧ fromFraction (-1) = 0x8000 := by
  decide +kernel

/-! ## LDA, ADD, SUB, MUL (R210 to R213; 95, sections 2.3 to 2.5) -/

theorem test_lda : accAfter 0x10000064 (withWord 100 0x40002666 (core 0 0)) = some 0x40002666 := by decide
theorem test_lda_indexed :
    accAfter 0x1080002A (withWord 40 0x10002000 (withIx .x1 0xFFFE (core 1 0))) = some 0x10002000 := by decide
theorem test_add : accAfter 0x11000065 (withWord 101 0x33331999 (core 0 0x40002666)) = some 0x39991FFF := by decide
theorem test_add_overflow : accAfter 0x11000065 (withWord 101 0x00018000 (core 0 0x7FFF8000)) = some 0xC0000000 := by decide
theorem test_sub : accAfter 0x20000065 (withWord 101 0x40002666 (core 0 0x33331999)) = some 0xF999F999 := by decide
theorem test_sub_equal : accAfter 0x20000065 (withWord 101 0x12345678 (core 0 0x12345678)) = some 0xFFFFFFFF := by decide
theorem test_mul : accAfter 0x30000066 (withWord 102 0x40004000 (core 0 0x4000BFFF)) = some 0x2000DFFF := by decide
theorem test_mul_zero_signs : accAfter 0x30000066 (withWord 102 0x80004000 (core 0 0)) = some 0xFFFF0000 := by decide

/-! ## Stores (R220 to R222; 95, section 2.6) -/

/-- A word of a bank after one step that fetches the word `w`. -/
def wordAfter (w : Nat) (s : State) (b : Bank) (a : Int) : Option Word :=
  (afterWord w s).map (memRead b a)

theorem test_sto_wraps_bank2 : wordAfter 0x40009004 (core 0 0x12345678) .bank2 4 = some 0x12345678 := by decide
theorem test_sto_negative_index :
    wordAfter 0x40400000 (withIx .x0 0xFFFF (core 0 0xFFFF0000)) .bank1 65535 = some 0xFFFF0000 := by decide
theorem test_stl : wordAfter 0x41000068 (withWord 104 0xAAAABBBB (core 0 0x12345678)) .bank1 104 = some 0x1234BBBB := by
  decide
theorem test_str : wordAfter 0x42000068 (withWord 104 0xAAAABBBB (core 0 0x12345678)) .bank1 104 = some 0xAAAA5678 := by
  decide

/-! ## Shifts (R231 to R236; 95, section 2.7) -/

theorem test_shlb : accAfter 0x50000001 (core 0 0x12348001) = some 0x24680002 := by decide
theorem test_shlb_ignores_index : accAfter 0x50C08001 (withIx .x2 7 (core 0 0xFFFF4001)) = some 0xFFFE8002 := by decide
theorem test_shll : accAfter 0x51000004 (core 0 0x12348001) = some 0x23408001 := by decide
theorem test_shlr : accAfter 0x52000004 (core 0 0x12348001) = some 0x12340010 := by decide
theorem test_shrb : accAfter 0x53000001 (core 0 0x12348001) = some 0x091A4000 := by decide
theorem test_shrb_count_32767 : accAfter 0x53007FFF (core 0 0xFFFF4001) = some 0 := by decide
theorem test_shrl : accAfter 0x54000004 (core 0 0x12348001) = some 0x01238001 := by decide
theorem test_shrr : accAfter 0x55000004 (core 0 0x12348001) = some 0x12340800 := by decide

/-! ## Branches (R240 to R246; 95, section 2.9) -/

theorem test_jmp_other_bank : pcAfter 0x60008005 (core 10 0) = some (5, .bank2) := by decide
theorem test_jmp_truncates : pcAfter 0x60400000 (withIx .x0 0xFFFF (core 10 0)) = some (32767, .bank1) := by decide
theorem test_bnz_negative_zero : pcAfter 0x61000007 (core 20 0xFFFFFFFF) = some (21, .bank1) := by decide
theorem test_bnz_taken : pcAfter 0x61000007 (core 20 0x80000000) = some (7, .bank1) := by decide
theorem test_bze_mixed_zeros : pcAfter 0x62000007 (core 20 0xFFFF0000) = some (7, .bank1) := by decide
theorem test_bze_half_zero : pcAfter 0x62000007 (core 20 0x00000001) = some (21, .bank1) := by decide
theorem test_tix_loops :
    (afterWord 0x63C0800A (withIx .x2 2 (core 12 0))).map (fun t => (t.ix.ix2, t.pc, t.pcBank)) = some (1, 10, .bank2) := by
  decide
theorem test_tix_ends :
    (afterWord 0x6340000A (withIx .x0 1 (core 12 0))).map (fun t => (t.ix.ix0, t.pc, t.pcBank)) = some (0, 13, .bank1) := by
  decide
theorem test_jsr_link : wordAfter 0x64000040 (core 4 0) .bank1 64 = some 0x00000005 := by decide
theorem test_jsr_last_slot : pcAfter 0x64008FFF (core 4 0) = some (4096, .bank2) := by decide
theorem test_ret : pcAfter 0x65000040 (withWord 64 0xABCD8005 (core 70 0)) = some (5, .bank2) := by decide

/-! ## I/O class (R250 to R253; 95, section 2.10) -/

theorem test_rdf_status :
    accAfter 0x70007000
      { core 0 0 with
        chan := ⟨true, false, false, false, false, false⟩, lg := ⟨true, true, 0, 0, 2⟩ } = some 0x00000041 := by decide
theorem test_rdf_clock : accAfter 0x70007001 { core 0 0 with rtc := 0x8123 } = some 0x00008123 := by decide
theorem test_wrf_field :
    (afterWord 0x71003000 (core 0 0x39991FFF)).map (fun t => (readField .sdf 0 t, t.chan.sdf)) =
      some (0x39991FFF, true) := by decide
theorem test_wrf_status_all :
    (afterWord 0x71007000
      { core 0 0xFFFFFFFF with
        chan := ⟨true, true, true, true, true, true⟩, lg := ⟨true, true, 10, 10, 2⟩ }).map
      (fun t => (t.chan, t.lg.armed, t.lg.flash)) =
      some (⟨false, false, false, false, false, false⟩, false, false) := by decide
theorem test_rdf_unmapped_halts : runAfter 0x70006000 (core 9 5) = some (false, 10) := by decide
theorem test_wrf_unmapped_halts : runAfter 0x71006ABC (core 9 5) = some (false, 10) := by decide
theorem test_ldx : (afterWord 0x72C000C9 (withWord 201 0xABCDFFFD (core 0 0))).map (fun t => t.ix.ix2) = some 0xFFFD := by
  decide
theorem test_ldx_not_indexed :
    (afterWord 0x724000C8 (withWord 200 0x0000000A (withIx .x0 5 (core 0 0)))).map (fun t => t.ix.ix0) = some 0x000A := by
  decide
theorem test_clx : (afterWord 0x7380FFFF (withIx .x1 0x1234 (core 0 0))).map (fun t => t.ix) = some ⟨0, 0, 0, 0⟩ := by decide

/-! ## Halting (R260, R261; 95, sections 2.9 and 2.11) -/

theorem test_hlt :
    (afterWord 0x00000000 { core 9 0 with icount := 41 }).map (fun t => (t.running, t.pc, t.icount)) =
      some (false, 10, 42) := by decide
theorem test_unrecognised_halts : runAfter 0x1F000000 (core 3 0) = some (false, 4) := by decide
theorem test_tix_without_register :
    (afterWord 0x6300000A (withIx .x0 3 (core 12 0))).map (fun t => (t.running, t.pc, t.ix.ix0)) =
      some (false, 13, 3) := by decide
theorem test_pc_wraps : pcAfter 0x50000000 (core 32767 0) = some (0, .bank1) := by decide

/-! ## Host operations (95, sections 2.12 to 2.14, S9) -/

theorem test_step_halted : nextOf (step State.reset) = some State.reset := by decide
theorem test_load_program_wraps :
    (fun s : State => (memRead .bank2 4095 s, memRead .bank2 0 s, s.pc, s.pcBank))
      (hostAct (.loadProgram [1, 2, 3] 4094 .bank2) State.reset).1 = (2, 3, 4094, .bank2) := by decide
/-- The numbers that 00_scope.md R2 takes as normative. -/
theorem test_normative_sizes :
    (decodeFields 0xFFFFFFFF = ⟨7, 15, 3, 1, 32767⟩ ∧ (leftHalf 0xFFFF0000).toNat = 65535 ∧
      (0xFFFFFFFF : Word).toNat = 4294967295) ∧
      (bankSize .bank1 = 65536 ∧ bankSize .bank2 = 4096) ∧
      (tick 65535 State.reset).rtc = 65535 ∧ ticksOf 1 = 32 := by decide +kernel

theorem test_tick : (tick 10 { State.reset with rtc := 65530 }).rtc = 4 := by decide
theorem test_tick_real_time_clock : ticksOf (1 / 20) = 1 ∧ ticksOf (1 / 60) = 0 ∧ ticksOf 2048 = 65536 := by decide +kernel
theorem test_write_field_wraps :
    (fun s : State => (readField .lri 4095 s, s.chan.lri)) (hostAct (.writeField 0 (-1) 9) State.reset).1 = (9, true) := by
  decide
theorem test_unknown_field : (hostAct (.writeField 6 0 1) State.reset) = (State.reset, .unknownField) := by decide
theorem test_unknown_channel : (hostAct (.checkStatus 9) State.reset) = (State.reset, .unknownField) := by decide
theorem test_draw_boundary :
    (lgDrawWith 25 1 3 4 ⟨true, false, 0, 0, 0⟩).2 = true ∧ (lgDrawWith 25 1 4 4 ⟨true, false, 0, 0, 0⟩).2 = false := by
  decide

/-! ## Witnesses: for each obligation with hypotheses, states and operands that meet them, at the edges of its clauses -/

/-- A Running core about to execute `STO 5` at offset 4, with something in every part of the machine. -/
def sample : State :=
  { State.reset with
    running := true, pc := 4, acc := 0x12345678, ix := ⟨0xFFFD, 2, 1, 0⟩, rtc := 9, icount := 41
    mem := ⟨[(4, 0x40000005), (100, 0x40002666), (65535, 0xFFFF0000)], [(4095, 1)]⟩
    drum := ⟨[(0, 7), (4095, 8)], [], [], [], [], [(1, 2)]⟩
    chan := ⟨true, false, false, true, false, true⟩
    lg := ⟨true, true, 10, 10, 3⟩ }

/-- The invariant of the sample, and of the state its step leads to. -/
theorem witness_EveryStepKeepsInvariant : sample.inv = true ∧ (nextOf (step sample)).map State.inv = some true := by decide

theorem witness_PowerOnMeetsInvariant : sample.mem.wf = true ∧ (State.powerOn sample.mem).inv = true := by decide

theorem witness_MemoryReadsWhatWasWritten :
    sample.mem.wf = true ∧ memRead .bank2 4 (memWrite .bank2 4100 9 sample) = 9 ∧
      memRead .bank2 4095 (memWrite .bank2 4100 9 sample) = 1 ∧
      memRead .bank1 4 (memWrite .bank2 4100 9 sample) = 0x40000005 := by decide

theorem witness_IgnoredBitsTakeNoPart :
    (0x903F0064#32 : Word) &&& 0x7FC0FFFF = 0x10000064#32 &&& 0x7FC0FFFF ∧
      fetchWord (sample.withFetchWord 32 0x903F0064) &&& 0x7FC0FFFF = fetchWord (sample.withFetchWord 32 0x10000064) &&& 0x7FC0FFFF ∧
      (sample.withFetchWord 32 0x903F0064).running = true := by decide

theorem witness_HalvesAreIndependent :
    leftHalf 0x12340000 = leftHalf 0x12345678 ∧ leftHalf 0x8000FFFF = leftHalf 0x80000000 ∧
      rightHalf 0x12345678 = rightHalf 0xFFFF5678 ∧ rightHalf 0x0000FFFF = rightHalf 0x7FFFFFFF := by decide

theorem witness_FractionConversionTruncates :
    fromFraction 1 = 0x7FFF ∧ fromFraction (-1) = 0x8000 ∧
      ((-1 : Rat) < -(32767 / 32768) ∧ (-(32767 / 32768) : Rat) < 1) ∧ fromFraction (-(32767 / 32768)) = 0x8000 ∧
      ((-1 : Rat) < 65535 / 65536 ∧ (65535 / 65536 : Rat) < 1) ∧ fromFraction (65535 / 65536) = 0x7FFF := by decide +kernel

theorem witness_OnlyZeroHasTwoPatterns :
    (0x0001#16 ≠ 0x0000#16 ∧ 0x0001#16 ≠ 0xFFFF#16) ∧ frac 0x0000 = frac 0xFFFF ∧ frac 0x7FFF = frac 0x7FFF := by
  decide +kernel

theorem witness_InRangeSumIsExact :
    (frac 0x4000 + frac 0x3FFF = 32767 / 32768 ∧ add1c 0x4000 0x3FFF = 0x7FFF) ∧
      (frac 0x8000 + frac 0xFFFF = -(32767 / 32768) ∧ add1c 0x8000 0xFFFF = 0x8000) ∧ add1c 0 0 = 0x0000 := by
  decide +kernel

theorem witness_HalfShiftsAreLogical :
    16 ≤ 16 ∧ shl16 0xFFFF 16 = 0 ∧ shl16 0xFFFF 15 = 0x8000 ∧ shr16 0xFFFF 16 = 0 ∧ shr16 0xFFFF 15 = 1 := by decide

theorem witness_StepRunsDecodedInstruction :
    State.reset.running = false ∧
      (sample.running = true ∧ decode (fetchWord sample) = .instr (.sto .none .bank1 5) ∧
        (nextOf (exec (.sto .none .bank1 5) sample)).isSome = true) ∧
      decode (fetchWord (sample.withFetchWord 32 0x1F000000)) = .unrecognised 1 15 := by decide

theorem witness_EveryRunningStepIsCounted :
    nextOf (step State.reset) = some State.reset ∧ sample.running = true ∧
      (nextOf (step sample)).map State.icount = some 42 := by decide

theorem witness_OnlyTheTickMovesTheClock :
    (nextOf (step sample)).map State.rtc = some 9 ∧
      ((∀ n, HostOp.pollAndClear ≠ .tick n) ∧ (∀ e, HostOp.pollAndClear ≠ .tickRealTimeClock e) ∧
        HostOp.pollAndClear ≠ .reset) ∧
      decode (fetchWord (sample.withFetchWord 32 0x70007000)) = .instr (.rdf .none 0x7000) ∧
      ioAddr .none 0x7000 sample ≠ 0x7001 :=
  ⟨by decide, ⟨fun _ h => (by cases h), fun _ h => (by cases h), by decide⟩, by decide, by decide⟩

theorem witness_OnlyBranchesLeaveTheLine :
    takesBranch (.bnz .none .bank2 7) (core 20 0xFFFFFFFF) = false ∧ takesBranch (.tix .x2 .bank2 7) sample = false ∧
      pcAfter 0x61008007 (core 20 0xFFFFFFFF) = some (21, .bank1) ∧ pcAfter 0x63C08007 sample = some (5, .bank1) ∧
      ((∀ w a b, HostOp.pollAndClear ≠ .loadProgram w a b) ∧ HostOp.pollAndClear ≠ .reset) :=
  ⟨by decide, by decide, by decide, by decide, ⟨fun _ _ _ h => (by cases h), by decide⟩⟩

theorem witness_StoredWordIsFetchedNext :
    sample.mem.wf = true ∧ sample.running = true ∧ Bank.bank1 = sample.pcBank ∧
      decode (fetchWord sample) = .instr (.sto .none .bank1 5) ∧
      effAddr .none .bank1 5 sample = slotOf .bank1 ((sample.pc + 1#15).toNat : Int) := by decide

theorem witness_OnlyStoresChangeMemory :
    storesInBank (.lda .x0 .bank1 100) = false ∧ (nextOf (exec (.lda .x0 .bank1 100) sample)).isSome = true ∧
      writesIo (.sto .none .bank1 5) = false ∧ (nextOf (exec (.sto .none .bank1 5) sample)).isSome = true := by decide

theorem witness_RegistersAreWrittenByTheirInstructions :
    writesAcc (.tix .x0 .bank1 5) = false ∧ IndexSel.x1 ≠ indexWritten (.tix .x0 .bank1 5) ∧
      (nextOf (exec (.tix .x0 .bank1 5) sample)).map (fun t => (t.acc, t.ix)) =
        some (0x12345678, ⟨0xFFFC, 2, 1, 0⟩) := by decide

theorem witness_HaltingHasOnlyItsCauses :
    [0x00000000, 0x1F000000, 0x63000010, 0x70006000, 0x71007002, 0x40000005].map
        (fun w => (haltCause (sample.withFetchWord 32 w), (afterWord w sample).map State.running)) =
      [(some .hlt, some false), (some .unrecognised, some false), (some .noIndexRegister, some false),
        (some .unmappedIo, some false), (some .unmappedIo, some false), (none, some true)] := by decide

/-- The CPU, a device writer and the two calls of log entries 8 and 9 act on a state that meets the invariant. -/
theorem witness_EveryRunOfAllAgentsKeepsInvariant :
    sample.inv = true ∧
      ([Op.cpu, .host (.writeField 0 4096 5), .host (.loadProgram [5] 0 .bank1), .host (.tickRealTimeClock (-1))].map
        fun o => (nextOf (act o sample)).map State.inv) = [some true, some true, some true, some true] ∧
      sample.mem.wf = true ∧
      (nextOf (runOps [.host (.arm 10 10), .host (.writeField 0 4096 5), .host .start, .cpu, .host .pollAndClear]
        (State.powerOn sample.mem))).map (fun t => (t.inv, t.icount, t.running)) = some (true, 1, false) := by decide

/-- One word `HLT` at the program counter: of three steps allowed, one is taken. -/
theorem witness_RunStepsWhileRunning :
    (match runSteps 3 (core 9 5) with
      | .next (t, n) => some (t.running, t.pc, n)
      | _ => none) = some (false, 10, 1) := by decide

/-- Every row of the opcode map has words: the row's own pattern with all its other bits set. -/
theorem witness_rows :
    ([0x00000000#32, 0x10000000, 0x11000000, 0x20000000, 0x30000000, 0x40000000, 0x41000000, 0x42000000, 0x50000000,
      0x51000000, 0x52000000, 0x53000000, 0x54000000, 0x55000000, 0x60000000, 0x61000000, 0x62000000, 0x63000000,
      0x64000000, 0x65000000, 0x70000000, 0x71000000, 0x72000000, 0x73000000].all fun m =>
      (m ||| 0x80FFFFFF#32) &&& 0x7F000000#32 == m) = true := by decide +kernel

/-- Both edges of the range of an exact sum: 1/2 + 16383/32768 on the left, -32767/32768 + 0 on the right. -/
theorem witness_AddHalvesTheSum :
    frac 0x4000 + frac 0x3FFF = 32767 / 32768 ∧ frac 0x8000 + frac 0x0000 = -(32767 / 32768) ∧
      accAfter 0x11000064 (withWord 100 0x3FFF0000 (core 0 0x40008000)) = some 0x3FFFC000 := by decide +kernel

theorem witness_SubtractAddsTheComplement :
    memRead .bank1 (effAddr .none .bank1 100 (core 0 0)) (core 0 0) = (core 0 0).acc := by decide

theorem witness_StoreWritesOneSlot :
    sample.mem.wf = true ∧ effAddr .x0 .bank1 2 sample = 65535 ∧
      (nextOf (exec (.sto .x0 .bank1 2) sample)).map (fun t => (memRead .bank1 (-1) t, memRead .bank2 4095 t)) =
        some (0x12345678, 1) := by decide

theorem witness_HalfStoresKeepTheOtherHalf :
    sample.mem.wf = true ∧
      (nextOf (exec (.stl .none .bank1 100) sample)).map (fun t => (memRead .bank1 100 t, memRead .bank1 4 t)) =
        some (0x12342666, 0x40000005) ∧
      (nextOf (exec (.str .none .bank1 100) sample)).map (memRead .bank1 100) = some 0x40005678 := by decide

theorem witness_LeftShiftsShiftTheNamedHalves :
    nextOf (exec (.shlb 0) sample) = some { sample with pc := 5 } := by decide

theorem witness_ZeroTestsAcceptBothZeros :
    0xFFFF0000#32 ∈ [0x00000000#32, 0x0000FFFF#32, 0xFFFF0000#32, 0xFFFFFFFF#32] ∧
      sample.acc ∉ [0x00000000#32, 0x0000FFFF#32, 0xFFFF0000#32, 0xFFFFFFFF#32] := by decide

/-- TIX with the register at 2, 1, 0, -32768 and -32767 before: the new value, and whether it branches (R243). -/
theorem witness_IndexLoopDecrementsThenTests :
    [0x0002, 0x0001, 0x0000, 0x8000, 0x8001].map (fun v =>
        (ixRead? .x1 (withIx .x1 v sample) == some v,
          (afterWord 0x6380800A (withIx .x1 v sample)).map fun t => (t.ix.ix1, t.pc, t.pcBank))) =
      [(true, some (1, 10, .bank2)), (true, some (0, 5, .bank1)), (true, some (0xFFFF, 5, .bank1)),
        (true, some (0x7FFF, 10, .bank2)), (true, some (0x8000, 5, .bank1))] := by decide

theorem witness_CallStoresTheLinkWord :
    sample.mem.wf = true ∧
      (nextOf (exec (.jsr .none .bank2 4095) { sample with pcBank := .bank2 })).map
        (fun t => (memRead .bank2 (-1) t, t.pc, t.pcBank)) = some (0x00008005, 4096, .bank2) := by decide

theorem witness_ReturnFollowsTheLinkWord :
    (0x40000005#32 : Word) = memRead .bank1 (effAddr .x1 .bank1 2 sample : Int) sample := by decide

/-- A call to slot 64, and the return through it with the index register that reaches the same slot. -/
theorem witness_ReturnResumesAfterTheCall :
    sample.mem.wf = true ∧ (nextOf (exec (.jsr .none .bank1 64) sample)).isSome = true ∧
      effAddr .x1 .bank1 62 sample = effAddr .none .bank1 64 sample := by decide

/-- The regions of the I/O map at their edges (R72). -/
theorem witness_ReadFollowsTheIoMap :
    [0x0000, 0x0FFF, 0x1000, 0x5FFF, 0x6000, 0x6FFF, 0x7000, 0x7001, 0x7002, 0x7FFF].map
        (fun a => ioDecode (ioAddr .none a sample)) =
      [.field .lri 0, .field .lri 4095, .field .gfi 0, .field .tmp 4095, .unmapped, .unmapped, .status, .clock, .unmapped,
        .unmapped] := by decide

/-- Whether the core runs, and the channels GFI and SDF, after a WRF to an address. -/
def afterWrf (a : Addr) : Option (Bool × Bool × Bool) :=
  (nextOf (exec (.wrf .none a) sample)).map fun t => (t.running, t.chan.gfi, t.chan.sdf)

theorem witness_WriteStoresAndSignals :
    sample.drum.wf = true ∧ afterWrf 0x0FFF = some (true, false, true) ∧ afterWrf 0x1000 = some (true, true, true) ∧
      afterWrf 0x5FFF = some (true, false, true) ∧ afterWrf 0x6000 = some (false, false, true) ∧
      afterWrf 0x7000 = some (true, false, false) ∧ afterWrf 0x7001 = some (true, false, true) ∧
      afterWrf 0x7002 = some (false, false, true) := by decide

theorem witness_StatusRegisterReadsAndClears :
    ioAddr .x1 0x6FFE sample = 0x7000 ∧ (sample.acc.getLsbD 6 = true ∧ sample.lg.flash = true) ∧
      statusWord sample = 0x00000069 := by decide

theorem witness_IndexRegistersLoadAndClear : IndexSel.x2 ≠ .none ∧ IndexSel.x0 ≠ .x2 := by decide

theorem witness_HaltStopsAtTheNextWord :
    (sample.withFetchWord 32 0x80FFFFFF).running = true ∧
      fetchWord (sample.withFetchWord 32 0x80FFFFFF) &&& 0x7F000000 = 0x00000000#32 := by decide

/-- Unrecognised pairs just past the defined ones of their classes. -/
theorem witness_UnrecognisedCombinationsHalt :
    [0x01000000#32, 0x12000000, 0x21000000, 0x31000000, 0x43000000, 0x56000000, 0x66000000, 0x74000000].map decode =
      [.unrecognised 0 1, .unrecognised 1 2, .unrecognised 2 1, .unrecognised 3 1, .unrecognised 4 3, .unrecognised 5 6,
        .unrecognised 6 6, .unrecognised 7 4] ∧
      (sample.withFetchWord 32 0x74000000).running = true := by decide

theorem witness_FieldWriteSetsItsChannel :
    sample.drum.wf = true ∧ fieldOfId 0 = some .lri ∧ fieldOfId 5 = some .tmp ∧
      readField .tmp 4097 (hostAct (.writeField 5 1 3) sample).1 = 3 := by decide

theorem witness_ClearStatusClearsItsChannel :
    channelOfNumber 0 = some (.field .lri) ∧ channelOfNumber 6 = some .lg ∧
      (hostAct (.clearStatus 6) sample).1.lg = ⟨false, false, 10, 10, 3⟩ ∧
      (hostAct (.clearStatus 0) sample).1.chan = ⟨false, false, false, true, false, true⟩ := by decide

/-- A set channel cleared from either port, and a gun disarmed from either. -/
theorem witness_ChannelsAndGunChangeOnlyByTheirOperations :
    checkStatus (.field .sdf) sample = true ∧ checkStatus (.field .sdf) (hostAct (.clearStatus 3) sample).1 = false ∧
      (nextOf (act .cpu (sample.withFetchWord 32 0x71007000))).map (checkStatus (.field .sdf)) = some false ∧
      (hostAct (.clearStatus 6) sample).1.lg ≠ sample.lg ∧
      (nextOf (act .cpu (sample.withFetchWord 32 0x71007000))).map State.lg = some ⟨false, false, 10, 10, 3⟩ := by decide

theorem witness_UnknownFieldChangesNothing :
    6 ≤ (6 : BitVec 3).toNat ∧ 6 ≤ (7 : BitVec 3).toNat ∧ channelOfNumber 6 = some .lg ∧ channelOfNumber 7 = none := by
  decide

/-- An Armed gun, a FlashPending one, and the two distances the spec bounds the radius with: 2 matches, 3200 does not
(R293). -/
theorem witness_LightGunFollowsItsStates :
    ((lgArm 10 10 sample.lg).armed = true ∧ (lgArm 10 10 sample.lg).flash = false ∧ sample.lg.flash = true) ∧
      ((11 - 10) ^ 2 + (11 - 10) ^ 2 ≤ (Config.lgRadiusSq : Int)) ∧
      ((Config.lgRadiusSq : Int) < (50 - 10) ^ 2 + (50 - 10) ^ 2) := by
  have h := Config.lgRadiusSlack.isLt
  refine ⟨by decide, ?_, ?_⟩ <;> unfold Config.lgRadiusSq <;> omega

theorem witness_FirstMatchWins :
    (lgArm 10 10 sample.lg).armed = true ∧ (lgArm 10 10 sample.lg).flash = false ∧
      withinSq 2 (lgArm 10 10 sample.lg) 11 11 = true ∧ withinSq 3199 (lgArm 10 10 sample.lg) 50 50 = false := by decide

/-- A program of three words from slot 4094 of bank 2: none of its words lands on another's slot. -/
theorem witness_LoadProgramPlacesItsWords :
    State.reset.running = false ∧ State.reset.mem.wf = true ∧ [(1 : Word), 2, 3][2]? = some 3 ∧
      slotOf .bank2 (4094 + 1) = 4095 ∧ slotOf .bank2 (4094 + 2) = 0 := by decide

theorem witness_StartOnlySetsRunning : sample.running = true ∧ (hostAct .start sample).1 = sample := by decide

theorem witness_ClockAddsItsPulses :
    (0 : Rat) ≤ 1 / 32 ∧ ticksOf (1 / 32) = 1 ∧ ticksOf (31 / 1024) = 0 ∧ ticksOf 0 = 0 := by decide +kernel

theorem witness_EnvironmentKeepsCoreRegisters :
    (∀ w a b, HostOp.arm 1 2 ≠ .loadProgram w a b) ∧ HostOp.arm 1 2 ≠ .start ∧ HostOp.arm 1 2 ≠ .reset ∧
      (∀ n, HostOp.arm 1 2 ≠ .tick n) ∧ (∀ e, HostOp.arm 1 2 ≠ .tickRealTimeClock e) :=
  ⟨fun _ _ _ h => (by cases h), by decide, by decide, fun _ h => (by cases h), fun _ h => (by cases h)⟩

end Sys2Proof.Tests
end

/-! SUPPORT. The control part of the state: the program counter and its bank, the clock, the instruction counter and the
running flag (10_state.md R25 to R29). What a step and a host operation can do to it is said once here. -/

namespace Sys2Proof.Machine

/-! ## The control part -/

/-- The states agree on the control part; they may differ in the registers, the memories and the devices. -/
structure SameControl (s u : State) : Prop where
  pc : u.pc = s.pc
  pcBank : u.pcBank = s.pcBank
  rtc : u.rtc = s.rtc
  icount : u.icount = s.icount
  running : u.running = s.running

theorem SameControl.refl (s : State) : SameControl s s := ⟨rfl, rfl, rfl, rfl, rfl⟩

theorem SameControl.setAcc (v : Word) (s : State) : SameControl s (setAcc v s) := ⟨rfl, rfl, rfl, rfl, rfl⟩

theorem SameControl.setIx (xs : IndexSel) (v : IxWord) (s : State) : SameControl s (setIx xs v s) :=
  ⟨rfl, rfl, rfl, rfl, rfl⟩

theorem SameControl.memWrite (b : Bank) (a : Int) (v : Word) (s : State) : SameControl s (memWrite b a v s) :=
  ⟨rfl, rfl, rfl, rfl, rfl⟩

/-- A write to the I/O space never reaches the control part, CLOCK included (R281). -/
theorem SameControl.of_ioWrite {ioa : Addr} {v : Word} {s u : State} (h : ioWrite ioa v s = some u) :
    SameControl s u := by
  rcases ioWrite_cases ioa v s with ⟨f, o, -, hw⟩ | ⟨-, hw⟩ | ⟨-, hw⟩ | ⟨-, hw⟩ <;> rw [hw] at h <;> cases h
  · exact ⟨rfl, rfl, rfl, rfl, rfl⟩
  · exact ⟨by simp, by simp, by simp, by simp, by simp⟩
  · exact .refl s

/-! ## What one instruction does to the control part -/

/-- Executing the instruction halts the core (R260, R261, R250, R251). -/
def instrHalts : Instr → State → Bool
  | .hlt, _ => true
  | .rdf xs a, s => decide (ioDecode (ioAddr xs a s) = .unmapped)
  | .wrf xs a, s => decide (ioDecode (ioAddr xs a s) = .unmapped)
  | i, _ => !i.wellFormed

theorem haltCause_isSome_of_instr {s : State} {i : Instr} (hd : decode (fetchWord s) = .instr i) :
    (haltCause s).isSome = instrHalts i s := by
  unfold haltCause
  rw [hd]
  cases i with
  | rdf xs a | wrf xs a => by_cases h : ioDecode (ioAddr xs a s) = .unmapped <;> simp [instrHalts, h]
  | tix xs b a | ldx xs b a => cases xs <;> rfl
  | clx xs => cases xs <;> rfl
  | _ => rfl

theorem haltCause_of_unrecognised {s : State} {c : BitVec 3} {o : BitVec 4}
    (hd : decode (fetchWord s) = .unrecognised c o) : haltCause s = some .unrecognised := by
  unfold haltCause
  rw [hd]

/-- The three ways an instruction leaves the control part: the implicit halt, the next word, or a branch. -/
inductive ControlFlow (i : Instr) (s : State) : State → Prop where
  | halts (hh : instrHalts i s = true) (hb : takesBranch i s = false) : ControlFlow i s (implicitHalt s)
  | goesOn {u : State} (hh : instrHalts i s = false) (hb : takesBranch i s = false) (hu : SameControl s u) :
    ControlFlow i s (advance u)
  | branches {u : State} {b : Bank} {off : Nat} (hh : instrHalts i s = false) (hb : takesBranch i s = true)
    (hu : SameControl s u) : ControlFlow i s (branchTo b off u)

theorem namesRegister_of_ixRead? {xs : IndexSel} {s : State} {o : Option IxWord} (h : ixRead? xs s = o) :
    xs.namesRegister = o.isSome := by
  rw [← h, ixRead?_isSome_iff]

theorem execTix_controlFlow {xs : IndexSel} {b : Bank} {a : Addr} {s t : State} (h : execTix xs b a s = .next t) :
    ControlFlow (.tix xs b a) s t := by
  have named {o : Option IxWord} (hx : ixRead? xs s = o) : instrHalts (.tix xs b a) s = !o.isSome :=
    congrArg (!·) (namesRegister_of_ixRead? hx)
  rcases execTix_cases xs b a s with ⟨hx, he⟩ | ⟨old, hx, hpos, he⟩ | ⟨old, hx, hpos, he⟩ <;> rw [he] at h <;> cases h
  · exact .halts (named hx) (by simp [takesBranch, hx])
  · exact .branches (named hx) (by simpa [takesBranch, hx] using hpos) (.setIx _ _ s)
  · exact .goesOn (named hx) (by simpa [takesBranch, hx] using hpos) (.setIx _ _ s)

theorem ioRead_eq_none_iff (ioa : Addr) (s : State) : ioRead ioa s = none ↔ ioDecode ioa = .unmapped := by
  rcases ioRead_cases ioa s with ⟨f, o, hd, hr⟩ | ⟨hd, hr⟩ | ⟨hd, hr⟩ | ⟨hd, hr⟩ <;> simp [hd, hr]

theorem ioWrite_eq_none_iff (ioa : Addr) (v : Word) (s : State) :
    ioWrite ioa v s = none ↔ ioDecode ioa = .unmapped := by
  rcases ioWrite_cases ioa v s with ⟨f, o, hd, hw⟩ | ⟨hd, hw⟩ | ⟨hd, hw⟩ | ⟨hd, hw⟩ <;> simp [hd, hw]

theorem execRdf_controlFlow {xs : IndexSel} {a : Addr} {s t : State} (h : execRdf xs a s = .next t) :
    ControlFlow (.rdf xs a) s t := by
  rcases execRdf_cases xs a s with ⟨v, hv, he⟩ | ⟨hv, he⟩ <;> rw [he] at h <;> cases h
  · have mapped : ioDecode (ioAddr xs a s) ≠ .unmapped := by simp [← ioRead_eq_none_iff _ s, hv]
    exact .goesOn (decide_eq_false mapped) rfl (.setAcc v s)
  · exact .halts (decide_eq_true ((ioRead_eq_none_iff _ s).1 hv)) rfl

theorem execWrf_controlFlow {xs : IndexSel} {a : Addr} {s t : State} (h : execWrf xs a s = .next t) :
    ControlFlow (.wrf xs a) s t := by
  rcases execWrf_cases xs a s with ⟨u, hu, he⟩ | ⟨hu, he⟩ <;> rw [he] at h <;> cases h
  · have mapped : ioDecode (ioAddr xs a s) ≠ .unmapped := by simp [← ioWrite_eq_none_iff _ s.acc s, hu]
    exact .goesOn (decide_eq_false mapped) rfl (.of_ioWrite hu)
  · exact .halts (decide_eq_true ((ioWrite_eq_none_iff _ s.acc s).1 hu)) rfl

/-- Every instruction leaves the control part in one of the three ways: the branches are decided by `takesBranch`, the
halts by `instrHalts`. -/
theorem exec_controlFlow {i : Instr} {s t : State} (h : exec i s = .next t) : ControlFlow i s t := by
  cases i with
  | hlt => cases h; exact .halts rfl rfl
  | lda | add | sub | mul | shlb | shll | shlr | shrb | shrl | shrr => cases h; exact .goesOn rfl rfl (.setAcc _ s)
  | sto | stl | str => cases h; exact .goesOn rfl rfl (.memWrite _ _ _ s)
  | jmp | ret => cases h; exact .branches rfl rfl (.refl s)
  | jsr => cases h; exact .branches rfl rfl (.memWrite _ _ _ s)
  | bnz xs b a =>
    cases h
    split
    · next hz => exact .goesOn rfl (by simp [takesBranch, hz]) (.refl s)
    · next hz => exact .branches rfl (by simp [takesBranch, hz]) (.refl s)
  | bze xs b a =>
    cases h
    split
    · next hz => exact .branches rfl hz (.refl s)
    · next hz => exact .goesOn rfl (by simp [takesBranch, hz]) (.refl s)
  | tix => exact execTix_controlFlow h
  | rdf => exact execRdf_controlFlow h
  | wrf => exact execWrf_controlFlow h
  | ldx xs | clx xs =>
    cases xs with
    | none => cases h; exact .halts rfl rfl
    | x0 | x1 | x2 => cases h; exact .goesOn rfl rfl (.setIx _ _ s)

/-! ## What a step does to the control part -/

/-- Everything a Running step can do to the control part. It counts one in every case; it halts exactly when
`haltCause` gives a cause, and leaves the line only where the fetched word decodes to a taken branch. -/
theorem step_running_cases {s t : State} (hr : s.running = true) (h : step s = .next t) :
    ((haltCause s).isSome = true ∧ t = countUp (implicitHalt s)) ∨
    ((haltCause s).isSome = false ∧ (∀ i, decode (fetchWord s) = .instr i → takesBranch i s = false) ∧
      ∃ u, SameControl s u ∧ t = countUp (advance u)) ∨
    ((haltCause s).isSome = false ∧ (∃ i, decode (fetchWord s) = .instr i ∧ takesBranch i s = true) ∧
      ∃ u b off, SameControl s u ∧ t = countUp (branchTo b off u)) := by
  rcases step_cases h with ⟨hr', -⟩ | ⟨-, i, v, hd, hv, rfl⟩ | ⟨-, c, o, hd, rfl⟩
  · simp [hr] at hr'
  · rw [haltCause_isSome_of_instr hd]
    cases exec_controlFlow hv with
    | halts hh hb => exact .inl ⟨hh, rfl⟩
    | goesOn hh hb hu =>
      have noBranch (j : Instr) (hj : decode (fetchWord s) = .instr j) : takesBranch j s = false := by
        cases hd.symm.trans hj
        exact hb
      exact .inr (.inl ⟨hh, noBranch, _, hu, rfl⟩)
    | branches hh hb hu => exact .inr (.inr ⟨hh, ⟨i, hd, hb⟩, _, _, _, hu, rfl⟩)
  · exact .inl ⟨by rw [haltCause_of_unrecognised hd]; rfl, rfl⟩

theorem eq_of_step_halted {s t : State} (hr : s.running = false) (h : step s = .next t) : t = s := by
  rw [step_halted hr] at h
  cases h
  rfl

theorem step_running_icount {s t : State} (hr : s.running = true) (h : step s = .next t) :
    t.icount = s.icount + 1 := by
  rcases step_running_cases hr h with ⟨-, rfl⟩ | ⟨-, -, u, hu, rfl⟩ | ⟨-, -, u, b, off, hu, rfl⟩
  · rfl
  · simp [hu.icount]
  · simp [hu.icount]

theorem step_rtc {s t : State} (h : step s = .next t) : t.rtc = s.rtc := by
  cases hr : s.running with
  | false => rw [eq_of_step_halted hr h]
  | true =>
    rcases step_running_cases hr h with ⟨-, rfl⟩ | ⟨-, -, u, hu, rfl⟩ | ⟨-, -, u, b, off, hu, rfl⟩
    · rfl
    · simp [hu.rtc]
    · simp [hu.rtc]

theorem step_pc_of_no_branch {s t : State} (hr : s.running = true) (h : step s = .next t)
    (hb : ∀ i, decode (fetchWord s) = .instr i → takesBranch i s = false) :
    t.pcBank = s.pcBank ∧ t.pc = s.pc + 1#15 := by
  rcases step_running_cases hr h with ⟨-, rfl⟩ | ⟨-, -, u, hu, rfl⟩ | ⟨-, ⟨i, hd, hi⟩, -⟩
  · exact ⟨rfl, rfl⟩
  · simp [hu.pcBank, hu.pc]
  · simp [hb i hd] at hi

theorem step_halts_iff {s t : State} (hr : s.running = true) (h : step s = .next t) :
    t.running = false ↔ (haltCause s).isSome = true := by
  rcases step_running_cases hr h with ⟨hc, rfl⟩ | ⟨hc, -, u, hu, rfl⟩ | ⟨hc, -, u, b, off, hu, rfl⟩
  · simp [hc]
  · simp [hc, hu.running, hr]
  · simp [hc, hu.running, hr]

/-! ## The clock and the instruction counter take no part in a step -/

/-- The clock and the instruction counter replaced. -/
def setTimers (v : BitVec 16) (n : Nat) (s : State) : State :=
  { s with rtc := v, icount := n }

/-- CLOCK is the one I/O address 0x7001 (20_memory.md R72). -/
theorem ioDecode_eq_clock {ioa : Addr} (h : ioDecode ioa = .clock) : ioa = 0x7001#15 := by
  rw [ioDecode_eq] at h
  split_ifs at h with _ _ _ _ _ _ _ hc
  exact BitVec.eq_of_toNat_eq hc

/-- A read of the I/O space does not see the timers, unless it reads CLOCK. -/
theorem ioRead_setTimers {v : BitVec 16} {ioa : Addr} {s : State} (hc : ioa = 0x7001#15 → v = s.rtc) (n : Nat) :
    ioRead ioa (setTimers v n s) = ioRead ioa s := by
  unfold ioRead
  cases hd : ioDecode ioa with
  | field | status | unmapped => rfl
  | clock =>
    obtain rfl := hc (ioDecode_eq_clock hd)
    rfl

/-- A write to the I/O space neither sees nor changes the timers (R281). -/
theorem ioWrite_setTimers (ioa : Addr) (w : Word) (s : State) (v : BitVec 16) (n : Nat) :
    ioWrite ioa w (setTimers v n s) = (ioWrite ioa w s).map (setTimers v n) := by
  unfold ioWrite
  cases ioDecode ioa with
  | field | clock | unmapped => rfl
  | status =>
    simp only [writeStatus_eq]
    rfl

/-- An instruction that does not read CLOCK does the same whatever the timers hold, and keeps them. -/
theorem exec_setTimers {i : Instr} {s t : State} {v : BitVec 16} (h : exec i s = .next t)
    (hc : ∀ xs a, i = .rdf xs a → ioAddr xs a s = 0x7001#15 → v = s.rtc) (n : Nat) :
    exec i (setTimers v n s) = .next (setTimers v n t) := by
  cases i with
  | hlt | lda | add | sub | mul | sto | stl | str | shlb | shll | shlr | shrb | shrl | shrr | jmp | jsr | ret =>
    cases h
    rfl
  | bnz | bze =>
    cases h
    rw [apply_ite (setTimers v n)]
    rfl
  | tix xs =>
    cases xs with
    | none => cases h; rfl
    | x0 | x1 | x2 =>
      cases h
      rw [apply_ite (setTimers v n)]
      rfl
  | rdf xs a =>
    have same : ioRead (ioAddr xs a (setTimers v n s)) (setTimers v n s) = ioRead (ioAddr xs a s) s :=
      ioRead_setTimers (hc xs a rfl) n
    rw [exec, execRdf] at h ⊢
    rw [same]
    cases hv : ioRead (ioAddr xs a s) s with
    | none | some w =>
      rw [hv] at h
      cases h
      rfl
  | wrf xs a =>
    have same : ioWrite (ioAddr xs a (setTimers v n s)) s.acc (setTimers v n s) =
        (ioWrite (ioAddr xs a s) s.acc s).map (setTimers v n) := ioWrite_setTimers _ _ s v n
    rw [exec, execWrf] at h ⊢
    rw [show (setTimers v n s).acc = s.acc from rfl, same]
    cases hw : ioWrite (ioAddr xs a s) s.acc s with
    | none | some u =>
      rw [hw] at h
      cases h
      rfl
  | ldx xs | clx xs =>
    cases xs with
    | none | x0 | x1 | x2 => cases h; rfl

/-- A Running step that does not read CLOCK does the same whatever the timers hold. -/
theorem step_setTimers {s t : State} {v : BitVec 16} (hr : s.running = true) (h : step s = .next t)
    (hc : ∀ xs a, decode (fetchWord s) = .instr (.rdf xs a) → ioAddr xs a s = 0x7001#15 → v = s.rtc) (n : Nat) :
    step (setTimers v n s) = .next (setTimers v (n + 1) t) := by
  rcases step_cases h with ⟨hr', -⟩ | ⟨-, i, u, hd, hu, rfl⟩ | ⟨-, c, o, hd, rfl⟩
  · simp [hr] at hr'
  · have same := exec_setTimers hu (fun xs a hi => hc xs a (hi ▸ hd)) n
    rw [step_running_instr (s := setTimers v n s) hr hd, same]
    rfl
  · exact step_running_unrecognised (s := setTimers v n s) hr hd

/-! ## What a host operation does to the control part -/

/-- Loading a program changes the memory, the program counter and its bank, and nothing else (R181). -/
theorem loadProgram_eq (ws : List Word) (start : Nat) (b : Bank) (s : State) :
    loadProgram ws start b s =
      { s with mem := (loadProgram ws start b s).mem, pc := BitVec.ofNat 15 start, pcBank := b } := by
  rw [loadProgram, loadWords_eq]
  rfl

/-- Everything a host operation can do to the registers of the core: the operator's three operations and the clock tick
do what they are for; every other call, and one with no meaning, leaves them as they were. -/
theorem hostAct_cases (o : HostOp) (s : State) :
    (∃ ws a b, o = .loadProgram ws a b ∧ s.running = false ∧ (hostAct o s).1 = loadProgram ws a b s) ∨
    (o = .start ∧ (hostAct o s).1 = hostStart s) ∨
    (o = .reset ∧ (hostAct o s).1 = hostReset s) ∨
    (∃ n, (o = .tick n ∨ ∃ e, o = .tickRealTimeClock e) ∧ (hostAct o s).1 = tick n s) ∨
    coreView (hostAct o s).1 = coreView s := by
  cases o with
  | loadProgram ws a b =>
    cases hr : s.running with
    | false => exact .inl ⟨ws, a, b, rfl, rfl, by simp [hostAct, hr]⟩
    | true => simp [hostAct, hr]
  | start => exact .inr (.inl ⟨rfl, rfl⟩)
  | reset => exact .inr (.inr (.inl ⟨rfl, rfl⟩))
  | tick n => exact .inr (.inr (.inr (.inl ⟨n, .inl rfl, rfl⟩)))
  | tickRealTimeClock e =>
    by_cases he : e < 0
    · simp [hostAct, he]
    · exact .inr (.inr (.inr (.inl ⟨ticksOf e, .inr ⟨e, rfl⟩, by simp [hostAct, he]⟩)))
  | writeField f =>
    rw [hostAct]
    cases fieldOfId f <;> simp [coreView]
  | readField f =>
    rw [hostAct]
    cases fieldOfId f <;> simp
  | checkStatus c =>
    rw [hostAct]
    cases channelOfNumber c <;> simp
  | clearStatus c =>
    rw [hostAct]
    cases channelOfNumber c <;> simp [coreView]
  | arm | drawEvent | pollAndClear | memRead | memWrite => exact .inr (.inr (.inr (.inr rfl)))

theorem hostAct_rtc {o : HostOp} (s : State) (htick : ∀ n, o ≠ .tick n) (hreal : ∀ e, o ≠ .tickRealTimeClock e)
    (hreset : o ≠ .reset) : (hostAct o s).1.rtc = s.rtc := by
  rcases hostAct_cases o s with ⟨ws, a, b, -, -, he⟩ | ⟨-, he⟩ | ⟨ho, -⟩ | ⟨n, ho | ⟨e, ho⟩, -⟩ | hv
  · rw [he, loadProgram_eq]
  · rw [he, hostStart_rtc]
  · exact absurd ho hreset
  · exact absurd ho (htick n)
  · exact absurd ho (hreal e)
  · exact congrArg CoreView.rtc hv

theorem hostAct_pc {o : HostOp} (s : State) (hload : ∀ ws a b, o ≠ .loadProgram ws a b) (hreset : o ≠ .reset) :
    (hostAct o s).1.pcBank = s.pcBank ∧ (hostAct o s).1.pc = s.pc := by
  rcases hostAct_cases o s with ⟨ws, a, b, ho, -⟩ | ⟨-, he⟩ | ⟨ho, -⟩ | ⟨n, -, he⟩ | hv
  · exact absurd ho (hload ws a b)
  · simp [he]
  · exact absurd ho hreset
  · simp [he]
  · exact ⟨congrArg CoreView.pcBank hv, congrArg CoreView.pc hv⟩

theorem hostAct_running {o : HostOp} (s : State) (hstart : o ≠ .start) (hreset : o ≠ .reset) :
    (hostAct o s).1.running = s.running := by
  rcases hostAct_cases o s with ⟨ws, a, b, -, -, he⟩ | ⟨ho, -⟩ | ⟨ho, -⟩ | ⟨n, -, he⟩ | hv
  · rw [he, loadProgram_eq]
  · exact absurd ho hstart
  · exact absurd ho hreset
  · rw [he, tick_running]
  · exact congrArg CoreView.running hv

/-! ## The obligations -/

/-- Settles O21: the independence of the count is `step_setTimers` with the clock left as it is. -/
theorem everyRunningStepIsCounted : Obligations.EveryRunningStepIsCounted := by
  refine ⟨rfl, fun s t hr h => by rw [eq_of_step_halted hr h],
    fun s t n hr h => ⟨step_running_icount hr h, ?_⟩⟩
  calc step { s with icount := n }
    _ = .next (setTimers s.rtc (n + 1) t) := step_setTimers hr h (fun _ _ _ _ => rfl) n
    _ = .next { t with icount := n + 1 } := by rw [← step_rtc h]; rfl

/-- Settles O22: the independence of the clock is `step_setTimers` with the count left as it is. -/
theorem onlyTheTickMovesTheClock : Obligations.OnlyTheTickMovesTheClock := by
  refine ⟨rfl, fun s t h => step_rtc h, fun o s htick hreal hreset => hostAct_rtc s htick hreal hreset,
    fun s t v h hc => ?_⟩
  rcases Bool.eq_false_or_eq_true s.running with hr | hr
  · calc step { s with rtc := v }
      _ = .next (setTimers v (s.icount + 1) t) :=
        step_setTimers hr h (fun xs a hd ha => absurd ha (hc xs a hd)) s.icount
      _ = .next { t with rtc := v } := by rw [← step_running_icount hr h]; rfl
  · obtain rfl := eq_of_step_halted hr h
    exact step_halted hr

/-- Settles O23: of the ways a step can end only a taken branch leaves the line. -/
theorem onlyBranchesLeaveTheLine : Obligations.OnlyBranchesLeaveTheLine :=
  ⟨fun s => BitVec.toNat_add s.pc 1#15, fun _ _ hr h hb => step_pc_of_no_branch hr h hb,
    fun _ s hload hreset => hostAct_pc s hload hreset, rfl⟩

/-- Settles O27: a step halts where `haltCause` says so, and of the host operations only `start()` and `reset()` write
the running flag. -/
theorem haltingHasOnlyItsCauses : Obligations.HaltingHasOnlyItsCauses := by
  refine ⟨rfl, fun s => ⟨rfl, rfl⟩, fun s t h hr => by rwa [eq_of_step_halted hr h],
    fun s t h hr => step_halts_iff hr h, fun o s hr ht => ?_, fun o s hr ht => ?_⟩
  · by_contra hstart
    have hreset : o ≠ .reset := by
      rintro rfl
      cases ht
    simp [hostAct_running s hstart hreset, hr] at ht
  · by_contra hreset
    have hstart : o ≠ .start := by
      rintro rfl
      cases ht
    simp [hostAct_running s hstart hreset, hr] at ht

end Sys2Proof.Machine

/-! SUPPORT. The banks: which offsets reach the same slot, and what a read gives after a write (20_memory.md R62, R63). -/

namespace Sys2Proof.Machine

/-! ## Slots and offsets -/

/-- The slot an offset reaches is its residue modulo the bank's size. -/
theorem slotOf_cast (b : Bank) (a : Int) : (slotOf b a : Int) = a % (bankSize b : Int) := by
  have hpos := bankSize_pos b
  exact Int.toNat_of_nonneg (Int.emod_nonneg a (by omega))

/-- Two offsets reach the same slot just when they are congruent modulo the bank's size. -/
theorem slotOf_eq_iff (b : Bank) (a a' : Int) :
    slotOf b a = slotOf b a' ↔ a % (bankSize b : Int) = a' % (bankSize b : Int) := by
  rw [← slotOf_cast, ← slotOf_cast, Int.natCast_inj]

/-- An offset moved by a multiple of the bank's size reaches the same slot. -/
@[simp] theorem slotOf_add_mul_bankSize (b : Bank) (a k : Int) : slotOf b (a + k * bankSize b) = slotOf b a :=
  (slotOf_eq_iff b _ _).2 (Int.add_mul_emod_self_right a k (bankSize b))

/-! ## Reads after writes -/

/-- `memRead_write` for the model's own write. -/
theorem memRead_memWrite {s : State} (h : s.mem.wf = true) (b : Bank) (a : Int) (v : Word) (b' : Bank) (a' : Int) :
    memRead b' a' (memWrite b a v s) = if b' = b ∧ slotOf b' a' = slotOf b a then v else memRead b' a' s :=
  memRead_write h b a v b' a'

/-! ## The obligation -/

/-- Settles O4: a read sees a write through the slot both reach, and offsets share a slot when they are congruent. -/
theorem memoryReadsWhatWasWritten : Obligations.MemoryReadsWhatWasWritten := by
  refine ⟨fun b => ?size, fun s b b' a a' v h => ?readAfterWrite, fun s b a k => ?wrap, fun s b a v => ⟨_, rfl⟩⟩
  case size => cases b <;> rfl
  case readAfterWrite =>
    have sameSlot : (b' = b ∧ slotOf b' a' = slotOf b a) ↔
        (b' = b ∧ a' % (bankSize b : Int) = a % (bankSize b : Int)) :=
      and_congr_right fun hb => hb ▸ slotOf_eq_iff b' a' a
    rw [memRead_memWrite h]
    exact if_congr sameSlot rfl rfl
  case wrap => rw [memRead, memRead, slotOf_add_mul_bankSize]

end Sys2Proof.Machine

/-! SUPPORT. The bits of a word that take no part in decoding or execution (30_encoding.md R103). -/

namespace Sys2Proof.Machine

/-! ## The ignored bits -/

/-- A mask that holds every bit of a bit-field leaves the field as it is. -/
theorem extractLsb'_and_of_field_in_mask {m : Word} {start len : Nat}
    (hm : m.extractLsb' start len = BitVec.allOnes len) (w : Word) :
    (w &&& m).extractLsb' start len = w.extractLsb' start len := by
  rw [BitVec.extractLsb'_and, hm, BitVec.and_allOnes]

/-- The five fields lie in the bits of R103's mask. -/
@[simp] theorem decodeFields_and_mask (w : Word) : decodeFields (w &&& 0x7FC0FFFF#32) = decodeFields w := by
  unfold decodeFields
  congr 1 <;> exact extractLsb'_and_of_field_in_mask (by decide) w

/-- Decoding does not see the ignored bits. -/
@[simp] theorem decode_and_mask (w : Word) : decode (w &&& 0x7FC0FFFF#32) = decode w := by
  rw [decode_eq, decode_eq, decodeFields_and_mask]

theorem decode_eq_of_and_mask_eq {w w' : Word} (h : w &&& 0x7FC0FFFF#32 = w' &&& 0x7FC0FFFF#32) :
    decode w = decode w' :=
  calc decode w
    _ = decode (w &&& 0x7FC0FFFF#32) := (decode_and_mask w).symm
    _ = decode (w' &&& 0x7FC0FFFF#32) := by rw [h]
    _ = decode w' := decode_and_mask w'

/-! ## What a Running step executes -/

/-- What the fetched word decodes to fixes the instruction a Running step executes: the one decoded, or HLT for a word
the opcode map does not name (R110, R261). -/
theorem exists_instr_step_of_decode (d : Decoded) :
    ∃ i : Instr, ∀ s : State, s.running = true → decode (fetchWord s) = d → step s = countStep (exec i s) := by
  cases d with
  | instr i => exact ⟨i, fun s hr hd => step_running_instr hr hd⟩
  | unrecognised c o => exact ⟨.hlt, fun s hr hd => step_running_unrecognised hr hd⟩

/-! ## The obligation -/

/-- Settles O8: the words decode alike, and a Running step executes what its word decodes to. -/
theorem ignoredBitsTakeNoPart : Obligations.IgnoredBitsTakeNoPart := by
  refine ⟨fun w w' h => decode_eq_of_and_mask_eq h, fun s s' hr hr' h => ?_⟩
  obtain ⟨i, hi⟩ := exists_instr_step_of_decode (decode (fetchWord s))
  have alike : decode (fetchWord s') = decode (fetchWord s) := (decode_eq_of_and_mask_eq h).symm
  exact ⟨i, hi s hr rfl, hi s' hr' alike⟩

end Sys2Proof.Machine

/-! SUPPORT. The sign and the magnitude of a half, and rounding toward zero (40_word_arithmetic.md R143, R146). -/

namespace Sys2Proof.Machine

/-! ## Rationals by sign -/

/-- A magnitude taken with a sign bit: the value of a half is its magnitude's under its sign (R143). -/
def withSign (neg : Bool) (q : Rat) : Rat :=
  if neg then -q else q

/-- Signs combine by exclusive-or in a product. -/
theorem withSign_mul_withSign (s t : Bool) (x y : Rat) :
    withSign s x * withSign t y = withSign (s != t) (x * y) := by
  cases s <;> cases t <;> simp [withSign]

theorem withSign_not (s : Bool) (x : Rat) : withSign (!s) x = -withSign s x := by
  cases s <;> simp [withSign]

theorem withSign_abs (q : Rat) : withSign (decide (q < 0)) |q| = q := by
  by_cases h : q < 0
  · simp [withSign, h, abs_of_neg h]
  · simp [withSign, h, abs_of_nonneg (not_lt.1 h)]

/-! ## Rounding toward zero -/

/-- How many whole units of 1/32768 a magnitude holds. -/
def wholeUnits (x : Rat) : Nat :=
  ⌊x * 32768⌋₊

/-- A magnitude below 1 fits in 15 bits. -/
theorem wholeUnits_lt {x : Rat} (h0 : 0 ≤ x) (h1 : x < 1) : wholeUnits x < 32768 :=
  (Nat.floor_lt (by positivity)).2 (by push_cast; linarith)

theorem truncUnit_of_nonneg {x : Rat} (h : 0 ≤ x) : truncUnit x = (wholeUnits x : Rat) / 32768 := by
  have floor : (wholeUnits x : Rat) = ((x * 32768).floor : Rat) :=
    natCast_floor_eq_intCast_floor (by positivity)
  rw [truncUnit, if_pos h, floor]

/-- Rounding toward zero treats the two signs alike. -/
theorem truncUnit_neg (x : Rat) : truncUnit (-x) = -truncUnit x := by
  rcases lt_trichotomy x 0 with h | rfl | h
  · simp [truncUnit, h.le, not_le.2 h]
  · simp [truncUnit, Rat.floor_def]
  · simp [truncUnit, h.le, not_le.2 h]

theorem truncUnit_withSign (s : Bool) (x : Rat) : truncUnit (withSign s x) = withSign s (truncUnit x) := by
  cases s
  · rfl
  · exact truncUnit_neg x

/-! ## The sign and the magnitude of a half -/

theorem toNat_low15 (h : Half) : (h.extractLsb' 0 15).toNat = h.toNat % 32768 := by
  simp [BitVec.extractLsb'_toNat]

theorem magnitude_of_msb_false {h : Half} (hs : h.msb = false) : magnitude h = h.toNat := by
  have low : h.toNat < 32768 := BitVec.toNat_lt_of_msb_false hs
  rw [magnitude, hs, toNat_low15]
  exact Nat.mod_eq_of_lt low

/-- The two signs carry the same magnitudes, in complement patterns. -/
@[simp] theorem magnitude_not (h : Half) : magnitude (~~~h) = magnitude h := by
  cases hs : h.msb <;> simp [magnitude, hs]

theorem magnitude_lt (h : Half) : magnitude h < 32768 := by
  unfold magnitude
  split <;> exact BitVec.isLt _

theorem frac_eq_withSign (h : Half) : frac h = withSign h.msb ((magnitude h : Rat) / 32768) := rfl

/-! ## Halves made from a sign and a magnitude -/

/-- The half with the sign and the magnitude given: the complement of the magnitude's pattern when negative (R144,
R153). -/
def ofSignMagnitude (neg : Bool) (m : Nat) : Half :=
  if neg then ~~~(BitVec.ofNat 16 m) else BitVec.ofNat 16 m

theorem msb_ofNat_of_lt {m : Nat} (hm : m < 32768) : (BitVec.ofNat 16 m).msb = false := by
  rw [BitVec.msb_eq_decide, BitVec.toNat_ofNat, decide_eq_false_iff_not]
  omega

theorem msb_ofSignMagnitude (neg : Bool) {m : Nat} (hm : m < 32768) : (ofSignMagnitude neg m).msb = neg := by
  cases neg <;> simp [ofSignMagnitude, msb_ofNat_of_lt hm]

theorem magnitude_ofSignMagnitude (neg : Bool) {m : Nat} (hm : m < 32768) :
    magnitude (ofSignMagnitude neg m) = m := by
  have pattern : magnitude (BitVec.ofNat 16 m) = m := by
    rw [magnitude_of_msb_false (msb_ofNat_of_lt hm), BitVec.toNat_ofNat]
    omega
  cases neg
  · exact pattern
  · exact (magnitude_not _).trans pattern

/-- A half made of a sign and the whole units of a magnitude below 1 has the signed magnitude's value, rounded toward
zero. -/
theorem frac_ofSignMagnitude_wholeUnits (neg : Bool) {x : Rat} (h0 : 0 ≤ x) (h1 : x < 1) :
    frac (ofSignMagnitude neg (wholeUnits x)) = truncUnit (withSign neg x) := by
  have fits : wholeUnits x < 32768 := wholeUnits_lt h0 h1
  calc frac (ofSignMagnitude neg (wholeUnits x))
    _ = withSign neg ((wholeUnits x : Rat) / 32768) := by
      rw [frac_eq_withSign, msb_ofSignMagnitude neg fits, magnitude_ofSignMagnitude neg fits]
    _ = withSign neg (truncUnit x) := by rw [truncUnit_of_nonneg h0]
    _ = truncUnit (withSign neg x) := (truncUnit_withSign neg x).symm

/-! ## Negation -/

theorem msb_negate (h : Half) : (negate h).msb = !h.msb := by
  simp [negate]

/-- Negation keeps the magnitude and turns the sign. -/
theorem frac_negate (h : Half) : frac (negate h) = -frac h := by
  rw [frac_eq_withSign, msb_negate, negate, magnitude_not, withSign_not, ← frac_eq_withSign]

/-- The negation of a word is its complement: complementing acts on each half alone. -/
theorem wneg_eq_not (w : Word) : wneg w = ~~~w :=
  calc join (~~~leftHalf w) (~~~rightHalf w)
    _ = ~~~join (leftHalf w) (rightHalf w) := BitVec.not_append.symm
    _ = ~~~w := by rw [join_halves]

/-- Settles O13: complementing a half turns its sign bit and keeps its magnitude. -/
theorem negationIsComplement : Obligations.NegationIsComplement :=
  ⟨fun h => ⟨rfl, frac_negate h, BitVec.not_not⟩, wneg_eq_not⟩

end Sys2Proof.Machine

/-! SUPPORT. The product of two halves (40_word_arithmetic.md R153). -/

namespace Sys2Proof.Machine

/-- The magnitude of a half as a fraction lies in [0, 1). -/
theorem magnitude_div_bounds (h : Half) : 0 ≤ (magnitude h : Rat) / 32768 ∧ (magnitude h : Rat) / 32768 < 1 := by
  have below : (magnitude h : Rat) < 32768 := mod_cast magnitude_lt h
  exact ⟨by positivity, (div_lt_one (by norm_num)).2 below⟩

/-- Dropping the low 15 bits of the product of two magnitudes keeps its whole units. -/
theorem magnitude_mul_shiftRight (a b : Half) :
    (magnitude a * magnitude b) >>> 15 = wholeUnits ((magnitude a : Rat) / 32768 * ((magnitude b : Rat) / 32768)) := by
  have scaled : (magnitude a : Rat) / 32768 * ((magnitude b : Rat) / 32768) * 32768 =
      ((magnitude a * magnitude b : Nat) : Rat) / (32768 : Nat) := by
    push_cast
    ring
  rw [wholeUnits, scaled, Rat.natFloor_natCast_div_natCast, Nat.shiftRight_eq_div_pow]

theorem mul1c_eq_ofSignMagnitude (a b : Half) :
    mul1c a b = ofSignMagnitude (a.msb != b.msb)
      (wholeUnits ((magnitude a : Rat) / 32768 * ((magnitude b : Rat) / 32768))) := by
  rw [← magnitude_mul_shiftRight]
  rfl

/-- Settles O17: the product's half is made of the exclusive-or of the signs and the whole units of the product of the
magnitudes, which is below 1. -/
theorem productRoundsTowardZero : Obligations.ProductRoundsTowardZero := by
  intro a b
  obtain ⟨ha0, ha1⟩ := magnitude_div_bounds a
  obtain ⟨hb0, hb1⟩ := magnitude_div_bounds b
  have nonneg := mul_nonneg ha0 hb0
  have below := mul_lt_one_of_nonneg_of_lt_one_left ha0 ha1 hb1.le
  constructor
  · rw [mul1c_eq_ofSignMagnitude, frac_ofSignMagnitude_wholeUnits _ nonneg below, frac_eq_withSign a,
      frac_eq_withSign b, withSign_mul_withSign]
  · have sign : (mul1c a b).msb = (a.msb != b.msb) := by
      rw [mul1c_eq_ofSignMagnitude, msb_ofSignMagnitude _ (wholeUnits_lt nonneg below)]
    simpa only [BitVec.msb_eq_getLsbD_last, Bool.bne_eq_xor] using sign

end Sys2Proof.Machine

/-! SUPPORT. The conversion of a fraction to a half (40_word_arithmetic.md R144). -/

namespace Sys2Proof.Machine

theorem fromFraction_of_one_le {q : Rat} (h : 1 ≤ q) : fromFraction q = 0x7FFF#16 :=
  if_pos h

theorem fromFraction_of_le_neg_one {q : Rat} (h : q ≤ -1) : fromFraction q = 0x8000#16 := by
  rw [fromFraction, if_neg (by linarith), if_pos h]

/-- Strictly between the ends the conversion puts the sign to the whole units of the magnitude. -/
theorem fromFraction_eq_ofSignMagnitude {q : Rat} (hl : -1 < q) (hr : q < 1) :
    fromFraction q = ofSignMagnitude (decide (q < 0)) (wholeUnits |q|) := by
  rw [fromFraction, if_neg (not_le.2 hr), if_neg (not_le.2 hl)]
  rcases lt_or_ge q 0 with h | h
  · rw [if_neg (not_le.2 h), abs_of_neg h, decide_eq_true h]
    rfl
  · rw [if_pos h, abs_of_nonneg h, decide_eq_false (not_lt.2 h)]
    rfl

/-- Settles O11: between the ends the half is made of the sign and the whole units of a magnitude below 1. -/
theorem fractionConversionTruncates : Obligations.FractionConversionTruncates := by
  refine fun q => ⟨fromFraction_of_one_le, fromFraction_of_le_neg_one, fun hl hr => ?_⟩
  have below : |q| < 1 := abs_lt.2 ⟨hl, hr⟩
  rw [fromFraction_eq_ofSignMagnitude hl hr]
  constructor
  · rw [frac_ofSignMagnitude_wholeUnits _ (abs_nonneg q) below, withSign_abs]
  · exact msb_ofSignMagnitude _ (wholeUnits_lt (abs_nonneg q) below)

end Sys2Proof.Machine

/-! SUPPORT. Word operations that work on the two halves alone (40_word_arithmetic.md R142). -/

namespace Sys2Proof.Machine

@[simp] theorem leftHalf_wneg (w : Word) : leftHalf (wneg w) = negate (leftHalf w) :=
  leftHalf_join _ _

@[simp] theorem rightHalf_wneg (w : Word) : rightHalf (wneg w) = negate (rightHalf w) :=
  rightHalf_join _ _

/-- The word operation does the half operation `g` on the left halves and on the right halves. -/
def ActsOnHalves (g : Half → Half → Half) (f : Word → Word → Word) : Prop :=
  ∀ w1 w2 : Word, f w1 w2 = join (g (leftHalf w1) (leftHalf w2)) (g (rightHalf w1) (rightHalf w2))

theorem paddShift_actsOnHalves : ActsOnHalves (fun a b => asr1 (add1c a b)) paddShift :=
  fun _ _ => rfl

theorem psubShift_actsOnHalves : ActsOnHalves (fun a b => asr1 (add1c a (negate b))) psubShift := by
  intro w1 w2
  rw [psubShift, paddShift, leftHalf_wneg, rightHalf_wneg]

theorem pmul_actsOnHalves : ActsOnHalves mul1c pmul :=
  fun _ _ => rfl

theorem ActsOnHalves.leftHalf_congr {g : Half → Half → Half} {f : Word → Word → Word} (hf : ActsOnHalves g f)
    {w1 w2 v1 v2 : Word} (h1 : leftHalf w1 = leftHalf v1) (h2 : leftHalf w2 = leftHalf v2) :
    leftHalf (f w1 w2) = leftHalf (f v1 v2) := by
  rw [hf w1 w2, hf v1 v2, leftHalf_join, leftHalf_join, h1, h2]

theorem ActsOnHalves.rightHalf_congr {g : Half → Half → Half} {f : Word → Word → Word} (hf : ActsOnHalves g f)
    {w1 w2 v1 v2 : Word} (h1 : rightHalf w1 = rightHalf v1) (h2 : rightHalf w2 = rightHalf v2) :
    rightHalf (f w1 w2) = rightHalf (f v1 v2) := by
  rw [hf w1 w2, hf v1 v2, rightHalf_join, rightHalf_join, h1, h2]

/-- Each of the three parallel primitives does one operation of halves on both sides. -/
theorem exists_actsOnHalves_of_mem {f : Word → Word → Word} (hf : f ∈ [paddShift, psubShift, pmul]) :
    ∃ g, ActsOnHalves g f := by
  simp only [List.mem_cons, List.not_mem_nil, or_false] at hf
  rcases hf with rfl | rfl | rfl
  · exact ⟨_, paddShift_actsOnHalves⟩
  · exact ⟨_, psubShift_actsOnHalves⟩
  · exact ⟨_, pmul_actsOnHalves⟩

/-- Settles O10: every primitive is the join of what it does to the left halves and to the right halves. -/
theorem halvesAreIndependent : Obligations.HalvesAreIndependent := by
  refine ⟨join_halves, fun l r => ?_, fun f hf w1 w2 v1 v2 => ?_, fun w v => ⟨fun h => ?_, fun h => ?_⟩⟩
  · rw [split, leftHalf_join, rightHalf_join]
  · obtain ⟨g, hg⟩ := exists_actsOnHalves_of_mem hf
    exact ⟨hg.leftHalf_congr, hg.rightHalf_congr⟩
  · rw [leftHalf_wneg, leftHalf_wneg, h]
  · rw [rightHalf_wneg, rightHalf_wneg, h]

end Sys2Proof.Machine

/-! SUPPORT. The sum and the shifts of halves on their patterns (40_word_arithmetic.md R147, R155). -/

namespace Sys2Proof.Machine

/-! ## The sum -/

/-- The pattern of a sum: the end-around carry never carries again, so nothing is lost (R148 (a)). -/
theorem toNat_add1c (a b : Half) :
    (add1c a b).toNat =
      if 0x10000 ≤ a.toNat + b.toNat then a.toNat + b.toNat - 0x10000 + 1 else a.toNat + b.toNat := by
  have ha := a.isLt
  have hb := b.isLt
  rcases Nat.lt_or_ge (a.toNat + b.toNat) 0x10000 with noCarry | carry
  · rw [add1c, if_neg (Nat.not_le.2 noCarry), if_neg (Nat.not_le.2 noCarry), BitVec.toNat_ofNat]
    exact Nat.mod_eq_of_lt noCarry
  · rw [add1c, if_pos carry, if_pos carry, BitVec.toNat_ofNat]
    exact Nat.mod_eq_of_lt (by omega)

theorem add1c_comm (a b : Half) : add1c a b = add1c b a := by
  rw [add1c, add1c, Nat.add_comm]

/-- Settles O14: the sum's pattern, and the order of the operands plays no part in it. -/
theorem additionCarriesEndAround : Obligations.AdditionCarriesEndAround :=
  fun a b => ⟨toNat_add1c a b, add1c_comm a b⟩

/-! ## The shifts -/

theorem toNat_shl16 (h : Half) (n : Nat) : (shl16 h n).toNat = h.toNat * 2 ^ n % 65536 := by
  rw [shl16, BitVec.toNat_shiftLeft, Nat.shiftLeft_eq]

theorem toNat_shr16 (h : Half) (n : Nat) : (shr16 h n).toNat = h.toNat / 2 ^ n := by
  rw [shr16, BitVec.toNat_ushiftRight, Nat.shiftRight_eq_div_pow]

/-- Settles O18: the patterns are the shifted numbers, and a count of 16 leaves no bit of the half. -/
theorem halfShiftsAreLogical : Obligations.HalfShiftsAreLogical :=
  fun h n => ⟨toNat_shl16 h n, toNat_shr16 h n,
    fun hn => ⟨BitVec.shiftLeft_eq_zero hn, BitVec.ushiftRight_eq_zero hn⟩,
    BitVec.shiftLeft_zero h, BitVec.ushiftRight_zero h⟩

end Sys2Proof.Machine

/-! SUPPORT. Effective addresses, the cycle, and runs of steps (41_cpu_cycle.md R184, R186, R189). -/

namespace Sys2Proof.Machine

/-! ## Effective addresses -/

@[simp] theorem indexValue_none (s : State) : indexValue .none s = 0 := rfl
@[simp] theorem indexValue_x0 (s : State) : indexValue .x0 s = s.ix.ix0.toInt := rfl
@[simp] theorem indexValue_x1 (s : State) : indexValue .x1 s = s.ix.ix1.toInt := rfl
@[simp] theorem indexValue_x2 (s : State) : indexValue .x2 s = s.ix.ix2.toInt := rfl

theorem effAddr_cast (xs : IndexSel) (b : Bank) (a : Addr) (s : State) :
    (effAddr xs b a s : Int) = ((a.toNat : Int) + indexValue xs s) % (bankSize b : Int) :=
  slotOf_cast b _

/-- Settles O5: an effective address is the residue of the address plus the index value, read off for each select. -/
theorem effectiveAddressWraps : Obligations.EffectiveAddressWraps := by
  intro b a s
  refine ⟨?none, ?x0, ?x1, ?x2⟩
  case none => rw [effAddr_cast, indexValue_none, add_zero]
  case x0 => rw [effAddr_cast, indexValue_x0]
  case x1 => rw [effAddr_cast, indexValue_x1]
  case x2 => rw [effAddr_cast, indexValue_x2]

/-! ## The cycle -/

/-- Settles O19: the three ways a step goes, by the running flag and by what the fetched word decodes to. -/
theorem stepRunsDecodedInstruction : Obligations.StepRunsDecodedInstruction := by
  refine ⟨fun s hr => step_halted hr, fun s => rfl, fun s t i hr hd he => ?decoded,
    fun s c o hr hd => step_running_unrecognised hr hd⟩
  case decoded =>
    calc step s
      _ = countStep (exec i s) := step_running_instr hr hd
      _ = .next (countUp t) := by rw [he, countStep_next]

/-! ## Every step answers a next state -/

/-- Every instruction completes, on each of the ways it can take (R310). -/
theorem exec_answers_next (i : Instr) (s : State) : ∃ t, exec i s = .next t := by
  cases i with
  | tix xs b a =>
    rcases execTix_cases xs b a s with ⟨-, he⟩ | ⟨old, -, -, he⟩ | ⟨old, -, -, he⟩ <;> exact ⟨_, he⟩
  | rdf xs a => rcases execRdf_cases xs a s with ⟨v, -, he⟩ | ⟨-, he⟩ <;> exact ⟨_, he⟩
  | wrf xs a => rcases execWrf_cases xs a s with ⟨u, -, he⟩ | ⟨-, he⟩ <;> exact ⟨_, he⟩
  | ldx xs | clx xs => cases xs <;> exact ⟨_, rfl⟩
  | _ => exact ⟨_, rfl⟩

theorem step_answers_next (s : State) : ∃ t, step s = .next t := by
  cases hr : s.running with
  | false => exact ⟨s, step_halted hr⟩
  | true =>
    cases hd : decode (fetchWord s) with
    | instr i =>
      obtain ⟨u, hu⟩ := exec_answers_next i s
      exact ⟨countUp u, by rw [step_running_instr hr hd, hu, countStep_next]⟩
    | unrecognised c o => exact ⟨_, step_running_unrecognised hr hd⟩

/-! ## Runs of steps -/

theorem runSteps_halted {s : State} (hr : s.running = false) (k : Nat) : runSteps k s = .next (s, 0) := by
  cases k <;> simp [runSteps, hr]

theorem runSteps_running {s u t : State} {k n : Nat} (hr : s.running = true) (hs : step s = .next u)
    (hk : runSteps k u = .next (t, n)) : runSteps (k + 1) s = .next (t, n + 1) := by
  simp [runSteps, hr, hs, hk]

/-- `n` steps lead from `s` to `t`, each of them taken by a Running core. -/
def RunsThrough (n : Nat) (s t : State) : Prop :=
  Sys2Proof.core.run n s = .next t ∧ ∀ m < n, ∃ u : State, Sys2Proof.core.run m s = .next u ∧ u.running = true

theorem RunsThrough.zero (s : State) : RunsThrough 0 s s :=
  ⟨rfl, fun _ hm => absurd hm (Nat.not_lt_zero _)⟩

theorem RunsThrough.succ {s u t : State} {n : Nat} (hr : s.running = true) (hs : step s = .next u)
    (h : RunsThrough n u t) : RunsThrough (n + 1) s t := by
  obtain ⟨hrun, hrunning⟩ := h
  refine ⟨by rw [core_run_succ hs, hrun], fun m hm => ?_⟩
  cases m with
  | zero => exact ⟨s, rfl, hr⟩
  | succ m =>
    rw [core_run_succ hs]
    exact hrunning m (Nat.lt_of_succ_lt_succ hm)

/-- A run answers a state and the number of Running steps that lead to it; it stops early only on a Halted core. -/
theorem runSteps_spec (k : Nat) (s : State) :
    ∃ t n, runSteps k s = .next (t, n) ∧ n ≤ k ∧ RunsThrough n s t ∧ (n < k → t.running = false) := by
  induction k generalizing s with
  | zero => exact ⟨s, 0, rfl, Nat.le_refl 0, .zero s, fun h => absurd h (Nat.lt_irrefl 0)⟩
  | succ k ih =>
    cases hr : s.running with
    | false => exact ⟨s, 0, runSteps_halted hr _, Nat.zero_le _, .zero s, fun _ => hr⟩
    | true =>
      obtain ⟨u, hs⟩ := step_answers_next s
      obtain ⟨t, n, hk, hle, hthrough, hstop⟩ := ih u
      exact ⟨t, n + 1, runSteps_running hr hs hk, Nat.succ_le_succ hle, hthrough.succ hr hs,
        fun h => hstop (Nat.lt_of_succ_lt_succ h)⟩

/-- Settles O30, by induction on the limit in `runSteps_spec`. -/
theorem runStepsWhileRunning : Obligations.RunStepsWhileRunning := by
  intro k s
  obtain ⟨t, n, hk, hle, ⟨hrun, hrunning⟩, hstop⟩ := runSteps_spec k s
  exact ⟨t, n, hk, hle, hrun, hstop, hrunning⟩

end Sys2Proof.Machine

/-! SUPPORT. Loading a program and starting the core (41_cpu_cycle.md R181, R182). -/

namespace Sys2Proof.Machine

/-! ## The words of a program -/

/-- None of `n` words written one after another from offset `a` lands on the slot that offset `x` reaches. -/
def WordsMiss (b : Bank) (n : Nat) (a x : Int) : Prop :=
  ∀ j < n, slotOf b (a + (j : Nat)) ≠ slotOf b x

/-- Word `j + 1` from offset `a` is word `j` from the offset after it. -/
theorem offset_succ (a : Int) (j : Nat) : a + ((j + 1 : Nat) : Int) = a + 1 + (j : Int) := by
  push_cast
  ring

theorem wordsMiss_succ_iff {b : Bank} {n : Nat} {a x : Int} :
    WordsMiss b (n + 1) a x ↔ slotOf b a ≠ slotOf b x ∧ WordsMiss b n (a + 1) x := by
  simp only [WordsMiss, ← offset_succ, Nat.forall_lt_succ_left, Nat.cast_zero, add_zero]

/-- Loading words keeps the other bank, and every slot of its own that no word lands on. -/
theorem memRead_loadWords_of_miss {b b' : Bank} {ws : List Word} {a x : Int} {s : State} (hwf : s.mem.wf = true)
    (h : b' ≠ b ∨ WordsMiss b ws.length a x) : memRead b' x (loadWords b ws a s) = memRead b' x s := by
  induction ws generalizing a s with
  | nil => rfl
  | cons w ws ih =>
    rw [List.length_cons, wordsMiss_succ_iff] at h
    have rest : b' ≠ b ∨ WordsMiss b ws.length (a + 1) x := h.imp_right And.right
    have first : ¬(b' = b ∧ slotOf b' x = slotOf b a) := by
      rintro ⟨rfl, hx⟩
      exact h.elim (absurd rfl) fun hmiss => hmiss.1 hx.symm
    rw [loadWords, ih (memWrite_wf hwf b a w) rest, memRead_memWrite hwf, if_neg first]

/-- A word that no later word lands on is in its slot after the loading (R181). -/
theorem memRead_loadWords_of_last {b : Bank} {ws : List Word} {i : Nat} {w : Word} {a : Int} {s : State}
    (hwf : s.mem.wf = true) (hw : ws[i]? = some w)
    (hlast : ∀ j, i < j → j < ws.length → slotOf b (a + (j : Nat)) ≠ slotOf b (a + (i : Nat))) :
    memRead b (a + (i : Nat)) (loadWords b ws a s) = w := by
  induction ws generalizing a s i with
  | nil => simp at hw
  | cons v ws ih =>
    have hwf' := memWrite_wf hwf b a v
    rw [loadWords]
    cases i with
    | zero =>
      obtain rfl : v = w := by simpa using hw
      have miss : WordsMiss b ws.length (a + 1) (a + ((0 : Nat) : Int)) := fun j hj =>
        offset_succ a j ▸ hlast (j + 1) (Nat.succ_pos j) (Nat.succ_lt_succ hj)
      rw [memRead_loadWords_of_miss hwf' (.inr miss), memRead_memWrite hwf, if_pos ⟨rfl, by simp⟩]
    | succ i =>
      rw [offset_succ]
      refine ih hwf' (by simpa using hw) fun j hij hj => ?_
      rw [← offset_succ, ← offset_succ]
      exact hlast (j + 1) (Nat.succ_lt_succ hij) (Nat.succ_lt_succ hj)

/-! ## `load_program` and `start()` -/

theorem hostAct_loadProgram_halted {s : State} (hr : s.running = false) (ws : List Word) (start : Nat) (b : Bank) :
    hostAct (.loadProgram ws start b) s = (loadProgram ws start b s, .done) := by
  simp [hostAct, hr]

/-- Setting the entry point does not touch the memory, so what reads back is what the words' loading left. -/
theorem memRead_loadProgram (ws : List Word) (start : Nat) (b b' : Bank) (x : Int) (s : State) :
    memRead b' x (loadProgram ws start b s) = memRead b' x (loadWords b ws (start : Int) s) :=
  memRead_congr (branchTo_mem b start _) b' x

/-- Settles O57: the memory is what loading the words one after another leaves, by induction on the words. -/
theorem loadProgramPlacesItsWords : Obligations.LoadProgramPlacesItsWords := by
  intro ws start b s hr hwf
  refine ⟨loadProgram ws start b s, hostAct_loadProgram_halted hr ws start b, loadProgram_eq ws start b s,
    BitVec.toNat_ofNat start 15, fun i w hw hlast => ?placed, fun b' x hmiss => ?kept⟩
  case placed =>
    rw [memRead_loadProgram, Nat.cast_add]
    simp only [Nat.cast_add] at hlast
    exact memRead_loadWords_of_last hwf hw hlast
  case kept =>
    simp only [Nat.cast_add] at hmiss
    rw [memRead_loadProgram]
    exact memRead_loadWords_of_miss hwf hmiss

theorem hostStart_of_running {s : State} (hr : s.running = true) : hostStart s = s := by
  rw [hostStart, ← hr]

/-- Settles O58: the fetch looks at the memory and the program counter, which `start()` keeps. -/
theorem startOnlySetsRunning : Obligations.StartOnlySetsRunning := by
  refine fun s => ⟨hostStart s, rfl, rfl, ?sameFetch, hostStart_of_running⟩
  case sameFetch =>
    rw [fetchWord, fetchWord, hostStart_pcBank, hostStart_pc]
    exact memRead_congr (hostStart_mem s) _ _

end Sys2Proof.Machine

/-! SUPPORT. The sum of two halves as a value, and its halving (40_word_arithmetic.md R148, R149). -/

namespace Sys2Proof.Machine

/-! ## Halves in whole units -/

/-- The value of a half in units of 1/32768: its pattern, read 65535 lower when the sign bit is 1 (R143). -/
def units (h : Half) : Int :=
  if h.msb then (h.toNat : Int) - 65535 else h.toNat

theorem frac_eq_units_div (h : Half) : frac h = (units h : Rat) / 32768 := by
  rw [frac_eq_withSign, units]
  cases hs : h.msb with
  | false => simp [withSign, magnitude_of_msb_false hs]
  | true =>
    have positive : (~~~h).msb = false := by simp [hs]
    have inWord : h.toNat ≤ 65535 := Nat.le_of_lt_succ h.isLt
    have complement : magnitude h = 65535 - h.toNat := by
      rw [← magnitude_not, magnitude_of_msb_false positive, BitVec.toNat_not]
    rw [complement, withSign, if_pos rfl, if_pos rfl]
    push_cast [inWord]
    ring

/-! ## The sum -/

/-- The carry brought around makes up for the 65535 by which each negative pattern is read lower (R148 (b)). -/
theorem units_add1c_of_inRange {a b : Half} (hl : -32767 ≤ units a + units b) (hr : units a + units b ≤ 32767) :
    units (add1c a b) = units a + units b := by
  have ha := a.isLt
  have hb := b.isLt
  simp only [units, BitVec.msb_eq_decide, decide_eq_true_eq, toNat_add1c] at *
  split_ifs at * <;> omega

theorem frac_add1c_of_inRange {a b : Half} (hl : -(32767 / 32768) ≤ frac a + frac b)
    (hr : frac a + frac b ≤ 32767 / 32768) : frac (add1c a b) = frac a + frac b := by
  have scaled : frac a + frac b = ((units a + units b : Int) : Rat) / 32768 := by
    rw [frac_eq_units_div, frac_eq_units_div]
    push_cast
    ring
  rw [scaled] at hl hr ⊢
  have lower : -32767 ≤ units a + units b := by
    exact_mod_cast (by linarith : (-32767 : Rat) ≤ (units a + units b : Int))
  have upper : units a + units b ≤ 32767 := by
    exact_mod_cast (by linarith : ((units a + units b : Int) : Rat) ≤ 32767)
  rw [frac_eq_units_div, units_add1c_of_inRange lower upper]

/-- A half and its complement sum to -0 (R148 (e)). -/
theorem add1c_negate (a : Half) : add1c a (negate a) = 0xFFFF#16 := by
  apply BitVec.eq_of_toNat_eq
  have ha := a.isLt
  have sum : a.toNat + (negate a).toNat = 65535 := by
    rw [negate, BitVec.toNat_not]
    omega
  rw [toNat_add1c, sum]
  rfl

/-! ## Halving -/

theorem asr1_eq_sshiftRight (h : Half) : asr1 h = h.sshiftRight 1 := by
  ext i hi
  have mask : 0x8000#16 = BitVec.twoPow 16 15 := rfl
  rw [asr1, BitVec.getElem_or, BitVec.getElem_and, mask, BitVec.getElem_twoPow, BitVec.getElem_ushiftRight,
    BitVec.getElem_sshiftRight, BitVec.msb_eq_getLsbD_last]
  rcases Nat.lt_succ_iff_lt_or_eq.1 hi with below | rfl
  · have inHalf : 1 + i < 16 := by omega
    simp [inHalf, below.ne]
  · simp

theorem ushiftRight_one_of_msb_false {h : Half} (hs : h.msb = false) :
    h >>> 1 = BitVec.ofNat 16 (magnitude h / 2) := by
  apply BitVec.eq_of_toNat_eq
  have ha := h.isLt
  rw [magnitude_of_msb_false hs, BitVec.toNat_ushiftRight, BitVec.toNat_ofNat, Nat.shiftRight_eq_div_pow]
  omega

/-- `asr1` keeps the sign and halves the magnitude. -/
theorem asr1_eq_ofSignMagnitude (h : Half) : asr1 h = ofSignMagnitude h.msb (magnitude h / 2) := by
  rw [asr1_eq_sshiftRight]
  cases hs : h.msb with
  | false => rw [BitVec.sshiftRight_eq_of_msb_false hs, ushiftRight_one_of_msb_false hs]; rfl
  | true =>
    have positive : (~~~h).msb = false := by simp [hs]
    rw [BitVec.sshiftRight_eq_of_msb_true hs, ushiftRight_one_of_msb_false positive, magnitude_not]
    rfl

theorem magnitude_half_eq_wholeUnits (h : Half) : magnitude h / 2 = wholeUnits ((magnitude h : Rat) / 32768 / 2) := by
  have scaled : (magnitude h : Rat) / 32768 / 2 * 32768 = (magnitude h : Rat) / (2 : Nat) := by
    push_cast
    ring
  rw [wholeUnits, scaled, Rat.natFloor_natCast_div_natCast]

theorem withSign_div (s : Bool) (x y : Rat) : withSign s (x / y) = withSign s x / y := by
  cases s <;> simp [withSign, neg_div]

/-- `asr1` halves the value toward zero (R149). -/
theorem frac_asr1 (h : Half) : frac (asr1 h) = truncUnit (frac h / 2) := by
  obtain ⟨nonneg, below⟩ := magnitude_div_bounds h
  rw [asr1_eq_ofSignMagnitude, magnitude_half_eq_wholeUnits,
    frac_ofSignMagnitude_wholeUnits _ (by linarith) (by linarith), withSign_div, ← frac_eq_withSign]

theorem frac_asr1_add1c_of_inRange {a b : Half} (hl : -(32767 / 32768) ≤ frac a + frac b)
    (hr : frac a + frac b ≤ 32767 / 32768) : frac (asr1 (add1c a b)) = truncUnit ((frac a + frac b) / 2) := by
  rw [frac_asr1, frac_add1c_of_inRange hl hr]

/-- A word minus itself is -0 in both halves, which the shift keeps. -/
theorem psubShift_self (w : Word) : psubShift w w = 0xFFFFFFFF#32 := by
  rw [psubShift_actsOnHalves w w]
  simp only [add1c_negate]
  decide

end Sys2Proof.Machine

/-! SUPPORT. The rows of the opcode map (30_encoding.md R102, R106). -/

namespace Sys2Proof.Machine

/-- A word of a row takes its class and opcode from the row's pattern, and its other fields from its own bits. -/
theorem decode_of_row {m w : Word} (h : w &&& 0x7F000000#32 = m) :
    decode w = dispatchFields { decodeFields w with cls := m.extractLsb' 28 3, op := m.extractLsb' 24 4 } := by
  rw [decode_eq, ← h, extractLsb'_and_of_field_in_mask (by decide), extractLsb'_and_of_field_in_mask (by decide)]
  rfl

theorem rowDecodes_lda : rowDecodes 0x10000000#32 .lda := fun _ h => decode_of_row h
theorem rowDecodes_add : rowDecodes 0x11000000#32 .add := fun _ h => decode_of_row h
theorem rowDecodes_sub : rowDecodes 0x20000000#32 .sub := fun _ h => decode_of_row h
theorem rowDecodes_mul : rowDecodes 0x30000000#32 .mul := fun _ h => decode_of_row h

end Sys2Proof.Machine

/-! SUPPORT. LDA, ADD, SUB and MUL (42_arith.md R210 to R213). -/

namespace Sys2Proof.Machine

/-! ## The instructions in terms of the arithmetic unit -/

/-- What each of the four does to the state: it writes the accumulator and goes on to the next word. -/
def accStep (v : Word) (s : State) : State :=
  { s with acc := v, pc := s.pc + 1#15 }

@[simp] theorem accStep_acc (v : Word) (s : State) : (accStep v s).acc = v := rfl

theorem exec_lda (xs : IndexSel) (b : Bank) (a : Addr) (s : State) :
    exec (.lda xs b a) s = .next (accStep (operand xs b a s) s) := rfl

theorem exec_add (xs : IndexSel) (b : Bank) (a : Addr) (s : State) :
    exec (.add xs b a) s = .next (accStep (paddShift s.acc (operand xs b a s)) s) := rfl

theorem exec_sub (xs : IndexSel) (b : Bank) (a : Addr) (s : State) :
    exec (.sub xs b a) s = .next (accStep (psubShift s.acc (operand xs b a s)) s) := rfl

theorem exec_mul (xs : IndexSel) (b : Bank) (a : Addr) (s : State) :
    exec (.mul xs b a) s = .next (accStep (pmul s.acc (operand xs b a s)) s) := rfl

/-! ## The obligations -/

/-- Settles O31: the operand is the word at the effective address. -/
theorem loadCopiesTheOperand : Obligations.LoadCopiesTheOperand :=
  ⟨rowDecodes_lda, exec_lda⟩

/-- Settles O32: an in-range sum of halves is exact, and the shift halves it toward zero. -/
theorem addHalvesTheSum : Obligations.AddHalvesTheSum := by
  refine ⟨rowDecodes_add, fun xs b a s => ⟨_, exec_add xs b a s, rfl, ?halves⟩⟩
  case halves =>
    rintro m rfl
    rw [accStep_acc, paddShift_actsOnHalves, leftHalf_join, rightHalf_join]
    exact ⟨rfl, rfl, frac_asr1_add1c_of_inRange, frac_asr1_add1c_of_inRange⟩

/-- Settles O33: the negated operand is its complement, and a word minus itself is -0 in both halves. -/
theorem subtractAddsTheComplement : Obligations.SubtractAddsTheComplement := by
  refine ⟨rowDecodes_sub, fun xs b a s => ⟨?complement, fun same => ?equal⟩⟩
  case complement =>
    rw [exec_sub, psubShift, wneg_eq_not]
    rfl
  case equal =>
    rw [exec_sub, operand, same, psubShift_self]
    rfl

/-- Settles O34: the word product is the product of the halves, each rounded toward zero with its own sign. -/
theorem multiplyRoundsEachHalf : Obligations.MultiplyRoundsEachHalf := by
  refine ⟨rowDecodes_mul, fun xs b a s => ⟨_, exec_mul xs b a s, rfl, ?halves⟩⟩
  case halves =>
    rintro m rfl
    rw [accStep_acc, pmul_actsOnHalves, leftHalf_join, rightHalf_join]
    obtain ⟨leftValue, leftSign⟩ := productRoundsTowardZero (leftHalf s.acc) (leftHalf (operand xs b a s))
    obtain ⟨rightValue, rightSign⟩ := productRoundsTowardZero (rightHalf s.acc) (rightHalf (operand xs b a s))
    exact ⟨leftValue, rightValue, leftSign, rightSign⟩

end Sys2Proof.Machine

/-! SUPPORT. STO, STL and STR (43_store.md R220 to R222). -/

namespace Sys2Proof.Machine

/-! ## Rows and instructions in terms of the shared store -/

theorem rowDecodes_sto : rowDecodes 0x40000000#32 .sto := fun _ h => decode_of_row h
theorem rowDecodes_stl : rowDecodes 0x41000000#32 .stl := fun _ h => decode_of_row h
theorem rowDecodes_str : rowDecodes 0x42000000#32 .str := fun _ h => decode_of_row h

theorem exec_sto (xs : IndexSel) (b : Bank) (a : Addr) (s : State) :
    exec (.sto xs b a) s = .next (storeOperand xs b a s.acc s) := rfl

theorem exec_stl (xs : IndexSel) (b : Bank) (a : Addr) (s : State) :
    exec (.stl xs b a) s = .next (storeOperand xs b a (join (leftHalf s.acc) (rightHalf (operand xs b a s))) s) := rfl

theorem exec_str (xs : IndexSel) (b : Bank) (a : Addr) (s : State) :
    exec (.str xs b a) s = .next (storeOperand xs b a (join (leftHalf (operand xs b a s)) (rightHalf s.acc)) s) := rfl

/-! ## What the shared store leaves and what it makes a read return -/

/-- The class changes memory and the program counter only. -/
theorem storeOperand_frame (xs : IndexSel) (b : Bank) (a : Addr) (v : Word) (s : State) :
    storeOperand xs b a v s = { s with mem := (storeOperand xs b a v s).mem, pc := s.pc + 1#15 } := rfl

theorem memRead_storeOperand {s : State} (h : s.mem.wf = true) (xs : IndexSel) (b : Bank) (a : Addr) (v : Word)
    (b' : Bank) (x : Int) :
    memRead b' x (storeOperand xs b a v s) =
      if b' = b ∧ slotOf b' x = effAddr xs b a s then v else memRead b' x s :=
  calc memRead b' x (storeOperand xs b a v s)
    _ = memRead b' x (memWrite b (effAddr xs b a s : Int) v s) := memRead_congr (advance_mem _) b' x
    _ = if b' = b ∧ slotOf b' x = effAddr xs b a s then v else memRead b' x s := by
      rw [memRead_memWrite h, slotOf_effAddr]

/-- Offsets that reach the same slot read the same word. -/
theorem memRead_eq_of_slotOf_eq {b : Bank} {x y : Int} (h : slotOf b x = slotOf b y) (s : State) :
    memRead b x s = memRead b y s := by
  rw [memRead, memRead, h]

/-- Every offset of the operand's slot reads the operand. -/
theorem operand_eq_memRead {xs : IndexSel} {b : Bank} {a : Addr} {x : Int} {s : State}
    (h : slotOf b x = effAddr xs b a s) : operand xs b a s = memRead b x s :=
  memRead_eq_of_slotOf_eq (by rw [slotOf_effAddr, h]) s

/-- Storing a word made from the operand updates the operand's slot in place: a half store keeps the half that `g` takes
from the old word. -/
theorem memRead_storeOperand_update {s : State} (h : s.mem.wf = true) (xs : IndexSel) (b : Bank) (a : Addr)
    (g : Word → Word) (b' : Bank) (x : Int) :
    memRead b' x (storeOperand xs b a (g (operand xs b a s)) s) =
      if b' = b ∧ slotOf b' x = effAddr xs b a s then g (memRead b' x s) else memRead b' x s := by
  rw [memRead_storeOperand h]
  by_cases hit : b' = b ∧ slotOf b' x = effAddr xs b a s
  · obtain ⟨rfl, sameSlot⟩ := hit
    rw [operand_eq_memRead sameSlot]
  · rw [if_neg hit, if_neg hit]

/-! ## The obligations -/

/-- Settles O35: the slot at the effective address reads as the word stored, which for STO is the accumulator. -/
theorem storeWritesOneSlot : Obligations.StoreWritesOneSlot :=
  ⟨rowDecodes_sto, fun xs b a s h =>
    ⟨_, exec_sto xs b a s, storeOperand_frame xs b a _ s, memRead_storeOperand h xs b a s.acc⟩⟩

/-- Settles O36: STL and STR update the slot in place, each with the half it names taken from the accumulator. -/
theorem halfStoresKeepTheOtherHalf : Obligations.HalfStoresKeepTheOtherHalf := by
  refine ⟨rowDecodes_stl, rowDecodes_str, fun xs b a s h => ⟨?stl, ?str⟩⟩
  case stl =>
    exact ⟨_, exec_stl xs b a s, storeOperand_frame xs b a _ s,
      memRead_storeOperand_update h xs b a fun old => join (leftHalf s.acc) (rightHalf old)⟩
  case str =>
    exact ⟨_, exec_str xs b a s, storeOperand_frame xs b a _ s,
      memRead_storeOperand_update h xs b a fun old => join (leftHalf old) (rightHalf s.acc)⟩

end Sys2Proof.Machine

/-! SUPPORT. SHLB, SHLL, SHLR, SHRB, SHRL and SHRR (44_shift.md R230 to R236). -/

namespace Sys2Proof.Machine

/-! ## Rows and instructions in terms of shifted halves -/

theorem rowDecodes_shlb : rowDecodes 0x50000000#32 (fun _ _ n => .shlb n) := fun _ h => decode_of_row h
theorem rowDecodes_shll : rowDecodes 0x51000000#32 (fun _ _ n => .shll n) := fun _ h => decode_of_row h
theorem rowDecodes_shlr : rowDecodes 0x52000000#32 (fun _ _ n => .shlr n) := fun _ h => decode_of_row h
theorem rowDecodes_shrb : rowDecodes 0x53000000#32 (fun _ _ n => .shrb n) := fun _ h => decode_of_row h
theorem rowDecodes_shrl : rowDecodes 0x54000000#32 (fun _ _ n => .shrl n) := fun _ h => decode_of_row h
theorem rowDecodes_shrr : rowDecodes 0x55000000#32 (fun _ _ n => .shrr n) := fun _ h => decode_of_row h

theorem exec_shlb (n : Addr) (s : State) :
    exec (.shlb n) s = .next (accStep (join (leftHalf s.acc <<< n.toNat) (rightHalf s.acc <<< n.toNat)) s) := rfl

theorem exec_shll (n : Addr) (s : State) :
    exec (.shll n) s = .next (accStep (join (leftHalf s.acc <<< n.toNat) (rightHalf s.acc)) s) := rfl

theorem exec_shlr (n : Addr) (s : State) :
    exec (.shlr n) s = .next (accStep (join (leftHalf s.acc) (rightHalf s.acc <<< n.toNat)) s) := rfl

theorem exec_shrb (n : Addr) (s : State) :
    exec (.shrb n) s = .next (accStep (join (leftHalf s.acc >>> n.toNat) (rightHalf s.acc >>> n.toNat)) s) := rfl

theorem exec_shrl (n : Addr) (s : State) :
    exec (.shrl n) s = .next (accStep (join (leftHalf s.acc >>> n.toNat) (rightHalf s.acc)) s) := rfl

theorem exec_shrr (n : Addr) (s : State) :
    exec (.shrr n) s = .next (accStep (join (leftHalf s.acc) (rightHalf s.acc >>> n.toNat)) s) := rfl

/-- Writing back the accumulator's own value only goes on to the next word. -/
theorem accStep_acc_self (s : State) : accStep s.acc s = { s with pc := s.pc + 1#15 } := rfl

/-- `SHLB 0` "changes nothing and serves as a no-operation" (R231): each half stays, and the halves join to the word. -/
theorem exec_shlb_zero (s : State) : exec (.shlb 0#15) s = .next { s with pc := s.pc + 1#15 } := by
  rw [exec_shlb, BitVec.toNat_zero, BitVec.shiftLeft_zero, BitVec.shiftLeft_zero, join_halves, accStep_acc_self]

/-! ## The obligations -/

/-- Settles O37: each left shift writes its shifted halves to the accumulator, and a count of 0 writes them back as they
were. -/
theorem leftShiftsShiftTheNamedHalves : Obligations.LeftShiftsShiftTheNamedHalves := by
  refine ⟨rowDecodes_shlb, rowDecodes_shll, rowDecodes_shlr, fun n s =>
    ⟨exec_shlb n s, exec_shll n s, exec_shlr n s, ?countZero⟩⟩
  case countZero =>
    rintro rfl
    exact exec_shlb_zero s

/-- Settles O38: each right shift writes its shifted halves to the accumulator. -/
theorem rightShiftsShiftTheNamedHalves : Obligations.RightShiftsShiftTheNamedHalves :=
  ⟨rowDecodes_shrb, rowDecodes_shrl, rowDecodes_shrr, fun n s => ⟨exec_shrb n s, exec_shrl n s, exec_shrr n s⟩⟩

end Sys2Proof.Machine

/-! SUPPORT. JMP, BNZ, BZE, TIX, JSR and RET (45_branch.md R240 to R246). -/

namespace Sys2Proof.Machine

/-! ## Rows and instructions in terms of a branch on a condition -/

theorem rowDecodes_jmp : rowDecodes 0x60000000#32 .jmp := fun _ h => decode_of_row h
theorem rowDecodes_bnz : rowDecodes 0x61000000#32 .bnz := fun _ h => decode_of_row h
theorem rowDecodes_bze : rowDecodes 0x62000000#32 .bze := fun _ h => decode_of_row h
theorem rowDecodes_tix : rowDecodes 0x63000000#32 .tix := fun _ h => decode_of_row h
theorem rowDecodes_jsr : rowDecodes 0x64000000#32 .jsr := fun _ h => decode_of_row h
theorem rowDecodes_ret : rowDecodes 0x65000000#32 .ret := fun _ h => decode_of_row h

/-- What BNZ, BZE and TIX share: the branch where the condition holds, else the next word. -/
def branchIf (taken : Bool) (b : Bank) (off : Nat) (s : State) : State :=
  if taken then branchTo b off s else advance s

theorem branchIf_true (b : Bank) (off : Nat) (s : State) : branchIf true b off s = branchTo b off s := rfl

theorem branchIf_false (b : Bank) (off : Nat) (s : State) : branchIf false b off s = advance s := rfl

/-- Taken or not, a branch changes the program counter and its bank only. -/
theorem branchIf_frame (taken : Bool) (b : Bank) (off : Nat) (s : State) :
    branchIf taken b off s =
      { s with pc := (branchIf taken b off s).pc, pcBank := (branchIf taken b off s).pcBank } := by
  cases taken <;> rfl

theorem branchIf_ix (taken : Bool) (b : Bank) (off : Nat) (s : State) : (branchIf taken b off s).ix = s.ix := by
  rw [branchIf_frame]

theorem exec_jmp (xs : IndexSel) (b : Bank) (a : Addr) (s : State) :
    exec (.jmp xs b a) s = .next (branchTo b (effAddr xs b a s) s) := rfl

theorem exec_bze (xs : IndexSel) (b : Bank) (a : Addr) (s : State) :
    exec (.bze xs b a) s = .next (branchIf (isZeroWord s.acc) b (effAddr xs b a s) s) := rfl

theorem exec_bnz (xs : IndexSel) (b : Bank) (a : Addr) (s : State) :
    exec (.bnz xs b a) s = .next (branchIf (!isZeroWord s.acc) b (effAddr xs b a s) s) := by
  rw [exec, execBnz]
  cases isZeroWord s.acc <;> rfl

/-- With a register named, TIX writes the decremented value back and branches on that new value. -/
theorem exec_tix {xs : IndexSel} {old : IxWord} {s : State} (h : ixRead? xs s = some old) (b : Bank) (a : Addr) :
    exec (.tix xs b a) s =
      .next (branchIf (0 < (old - 1#16).toInt) b (plainAddr b a) (setIx xs (old - 1#16) s)) := by
  rw [exec, execTix, h]
  simp only [branchIf, decide_eq_true_eq]

theorem exec_jsr (xs : IndexSel) (b : Bank) (a : Addr) (s : State) :
    exec (.jsr xs b a) s =
      .next (branchTo b (effAddr xs b a s + 1) (memWrite b (effAddr xs b a s : Int) (linkWord s) s)) := rfl

theorem exec_ret (xs : IndexSel) (b : Bank) (a : Addr) (s : State) :
    exec (.ret xs b a) s = .next (branchTo (linkBank (operand xs b a s)) (linkOffset (operand xs b a s)) s) := rfl

/-! ## The zero test -/

theorem isZeroHalf_iff (h : Half) : isZeroHalf h = true ↔ h = 0x0000#16 ∨ h = 0xFFFF#16 := by
  rw [isZeroHalf, Bool.or_eq_true, beq_iff_eq, beq_iff_eq]

theorem eq_join_iff {w : Word} {l r : Half} : w = join l r ↔ leftHalf w = l ∧ rightHalf w = r := by
  constructor
  · rintro rfl
    exact ⟨leftHalf_join l r, rightHalf_join l r⟩
  · rintro ⟨rfl, rfl⟩
    exact (join_halves w).symm

/-- The zero words are the four joins of two zero halves (R156). -/
theorem isZeroWord_iff_mem (w : Word) :
    isZeroWord w = true ↔ w ∈ [0x00000000#32, 0x0000FFFF#32, 0xFFFF0000#32, 0xFFFFFFFF#32] := by
  have joins : [0x00000000#32, 0x0000FFFF#32, 0xFFFF0000#32, 0xFFFFFFFF#32] =
      [join 0x0000 0x0000, join 0x0000 0xFFFF, join 0xFFFF 0x0000, join 0xFFFF 0xFFFF] := by decide
  rw [joins, isZeroWord, Bool.and_eq_true, isZeroHalf_iff, isZeroHalf_iff]
  simp only [List.mem_cons, List.not_mem_nil, eq_join_iff]
  tauto

/-! ## The decremented index register -/

theorem ixRead?_congr {s t : State} (h : s.ix = t.ix) (xs : IndexSel) : ixRead? xs s = ixRead? xs t := by
  unfold ixRead?
  rw [h]

theorem ixRead?_setIx_same {xs : IndexSel} {s : State} (h : xs.namesRegister = true) (v : IxWord) :
    ixRead? xs (setIx xs v s) = some v := by
  cases xs with
  | none => cases h
  | x0 | x1 | x2 => rfl

theorem ixRead?_setIx_of_ne {xs ys : IndexSel} (h : ys ≠ xs) (v : IxWord) (s : State) :
    ixRead? ys (setIx xs v s) = ixRead? ys s := by
  revert h
  cases xs <;> cases ys <;> simp

/-- The decrement wraps at -32768, which becomes 32767 (R243, decision D16). -/
theorem zero_lt_toInt_sub_one_iff (old : IxWord) :
    0 < (old - 1#16).toInt ↔ 1 < old.toInt ∨ old = 0x8000#16 := by
  rw [← BitVec.toNat_inj, BitVec.toInt_eq_toNat_cond, BitVec.toInt_eq_toNat_cond, BitVec.toNat_sub]
  have hlt := old.isLt
  simp only [BitVec.toNat_ofNat]
  omega

theorem plainAddr_eq_mod (b : Bank) (a : Addr) : plainAddr b a = a.toNat % bankSize b :=
  Int.toNat_natCast _

/-! ## The link word -/

theorem leftHalf_linkWord (s : State) : leftHalf (linkWord s) = 0x0000#16 :=
  leftHalf_join _ _

/-- Bits 14:0 of the link word are the offset of the next word (R245). -/
theorem linkWord_offset (s : State) : (linkWord s).extractLsb' 0 15 = s.pc + 1#15 :=
  calc (linkWord s).extractLsb' 0 15
    _ = (bankBit s.pcBank ++ pcNext s).extractLsb' 0 15 := BitVec.extractLsb'_append_eq_of_add_le (by omega)
    _ = pcNext s := BitVec.extractLsb'_append_eq_right

/-- Bit 15 of the link word is the caller's bank (R245). -/
theorem linkWord_bank (s : State) : (linkWord s).getLsbD 15 = decide (s.pcBank = .bank2) := by
  rw [linkWord, join, BitVec.getLsbD_append, BitVec.getLsbD_append]
  cases s.pcBank <;> rfl

theorem branchTo_linkOffset (b : Bank) (w : Word) (s : State) :
    branchTo b (linkOffset w) s = { s with pc := w.extractLsb' 0 15, pcBank := b } := by
  rw [branchTo, linkOffset, BitVec.ofNat_toNat, BitVec.setWidth_eq]

theorem bankOfBit_eq : ∀ v : BitVec 1, bankOfBit v = if v.getLsbD 0 then .bank2 else .bank1 := by decide

theorem linkBank_eq (w : Word) : linkBank w = if w.getLsbD 15 then .bank2 else .bank1 := by
  rw [linkBank, bankOfBit_eq, BitVec.getLsbD_extractLsb']
  rfl

/-! ## The obligations -/

/-- Settles O39: the effective offset cut to the program counter's 15 bits. -/
theorem jumpGoesToTheEffectiveAddress : Obligations.JumpGoesToTheEffectiveAddress :=
  ⟨rowDecodes_jmp, fun xs b a s => ⟨_, exec_jmp xs b a s, rfl, BitVec.toNat_ofNat _ 15⟩⟩

/-- Settles O40: both instructions branch on the zero test, which the four zero words alone pass. -/
theorem zeroTestsAcceptBothZeros : Obligations.ZeroTestsAcceptBothZeros := by
  refine ⟨rowDecodes_bnz, rowDecodes_bze, fun xs b a s => ?_⟩
  rw [exec_bze, exec_bnz, ← isZeroWord_iff_mem, Bool.not_eq_true]
  refine ⟨fun zero => ?_, fun nonzero => ?_⟩
  · rw [zero]
    exact ⟨rfl, rfl⟩
  · rw [nonzero]
    exact ⟨rfl, rfl⟩

/-- Settles O41: the register is written before the branch, whose condition reads the new value. -/
theorem indexLoopDecrementsThenTests : Obligations.IndexLoopDecrementsThenTests := by
  refine ⟨rowDecodes_tix, fun xs b a s old hx => ⟨_, exec_tix hx b a, ?frame, ?named, fun ys hne => ?others, ?ix3,
    fun positive => ?taken, fun notPositive => ?fallsThrough⟩⟩
  case frame =>
    rw [branchIf_frame]
    rfl
  case named =>
    have hnames : xs.namesRegister = true := namesRegister_of_ixRead? hx
    rw [ixRead?_congr (branchIf_ix _ _ _ _), ixRead?_setIx_same hnames]
  case others => rw [ixRead?_congr (branchIf_ix _ _ _ _), ixRead?_setIx_of_ne hne]
  case ix3 => rw [branchIf_ix, setIx_ix, ixWith_ix3]
  case taken =>
    rw [decide_eq_true ((zero_lt_toInt_sub_one_iff old).2 positive), branchIf_true, ← plainAddr_eq_mod]
    exact ⟨rfl, BitVec.toNat_ofNat _ 15⟩
  case fallsThrough =>
    rw [decide_eq_false (mt (zero_lt_toInt_sub_one_iff old).1 notPositive), branchIf_false]
    exact ⟨rfl, rfl⟩

/-- Settles O42: the slot at the effective address reads as the link word of the state before the step. -/
theorem callStoresTheLinkWord : Obligations.CallStoresTheLinkWord := by
  refine ⟨rowDecodes_jsr, fun xs b a s h => ⟨_, linkWord s, exec_jsr xs b a s, rfl, BitVec.toNat_ofNat _ 15,
    leftHalf_linkWord s, linkWord_offset s, linkWord_bank s, fun b' x => ?memory⟩⟩
  case memory => rw [memRead_congr (branchTo_mem b _ _), memRead_memWrite h, slotOf_effAddr]

/-- Settles O43: bits 14:0 and bit 15 of the operand are the offset and the bank of a link word. -/
theorem returnFollowsTheLinkWord : Obligations.ReturnFollowsTheLinkWord := by
  refine ⟨rowDecodes_ret, ?_⟩
  rintro xs b a s w rfl
  rw [exec_ret, branchTo_linkOffset, linkBank_eq]
  rfl

end Sys2Proof.Machine

/-! SUPPORT. LDX and CLX (46_io_class.md R252, R253). -/

namespace Sys2Proof.Machine

/-! ## Rows and instructions in terms of a written index register -/

theorem rowDecodes_ldx : rowDecodes 0x72000000#32 .ldx := fun _ h => decode_of_row h
theorem rowDecodes_clx : rowDecodes 0x73000000#32 (fun xs _ _ => .clx xs) := fun _ h => decode_of_row h

theorem namesRegister_of_ne_none {xs : IndexSel} (h : xs ≠ .none) : xs.namesRegister = true := by
  cases xs with
  | none => exact absurd rfl h
  | x0 | x1 | x2 => rfl

theorem memRead_plainAddr (b : Bank) (a : Addr) (s : State) :
    memRead b (plainAddr b a : Int) s = memRead b (a.toNat : Int) s :=
  memRead_eq_of_slotOf_eq (slotOf_plainAddr b a) s

/-- With a register named, LDX writes it with the right half of the word at the unindexed address. -/
theorem exec_ldx {xs : IndexSel} (h : xs.namesRegister = true) (b : Bank) (a : Addr) (s : State) :
    exec (.ldx xs b a) s = .next (advance (setIx xs (rightHalf (memRead b (a.toNat : Int) s)) s)) := by
  rw [← memRead_plainAddr]
  cases xs with
  | none => cases h
  | x0 | x1 | x2 => rfl

/-- With a register named, CLX writes it with zero. -/
theorem exec_clx {xs : IndexSel} (h : xs.namesRegister = true) (s : State) :
    exec (.clx xs) s = .next (advance (setIx xs 0x0000#16 s)) := by
  cases xs with
  | none => cases h
  | x0 | x1 | x2 => rfl

/-- What LDX and CLX share: the register named holds the value written, and nothing else but the program counter
changes. -/
theorem advance_setIx_spec {xs : IndexSel} (h : xs.namesRegister = true) (v : IxWord) {s t : State}
    (ht : t = advance (setIx xs v s)) :
    t = { s with ix := t.ix, pc := s.pc + 1#15 } ∧ ixRead? xs t = some v ∧
      (∀ ys, ys ≠ xs → ixRead? ys t = ixRead? ys s) ∧ t.ix.ix3 = s.ix.ix3 := by
  subst ht
  refine ⟨rfl, ?named, fun ys hne => ?others, ?ix3⟩
  case named => rw [ixRead?_congr (advance_ix _), ixRead?_setIx_same h]
  case others => rw [ixRead?_congr (advance_ix _), ixRead?_setIx_of_ne hne]
  case ix3 => rw [advance_ix, setIx_ix, ixWith_ix3]

/-! ## The obligation -/

/-- Settles O48: both instructions write the register they name and go on to the next word. -/
theorem indexRegistersLoadAndClear : Obligations.IndexRegistersLoadAndClear := by
  refine ⟨rowDecodes_ldx, rowDecodes_clx, fun xs s hx => ?_⟩
  have names : xs.namesRegister = true := namesRegister_of_ne_none hx
  exact ⟨fun b a => ⟨_, exec_ldx names b a s, advance_setIx_spec names _ rfl⟩,
    ⟨_, exec_clx names s, advance_setIx_spec names _ rfl⟩⟩

end Sys2Proof.Machine

/-! SUPPORT. RDF and WRF over the I/O map (46_io_class.md R250, R251; 20_memory.md R71 to R74). -/

namespace Sys2Proof.Machine

/-! ## The I/O address and the region it lies in -/

/-- The I/O address is the residue of the address plus the index value (R71). -/
theorem ioAddr_cast (xs : IndexSel) (a : Addr) (s : State) :
    ((ioAddr xs a s).toNat : Int) = ((a.toNat : Int) + indexValue xs s) % 32768 := by
  rw [ioAddr, BitVec.toNat_ofInt]
  exact Int.toNat_of_nonneg (Int.emod_nonneg _ (by decide))

/-- The region of field `f` is the 4096 addresses from `fieldNumber f * 0x1000` on. -/
theorem ioDecode_of_field_region {ioa : Addr} {f : Field} (hl : fieldNumber f * 0x1000 ≤ ioa.toNat)
    (hr : ioa.toNat < (fieldNumber f + 1) * 0x1000) :
    ioDecode ioa = .field f (ioa.toNat - fieldNumber f * 0x1000) := by
  rw [ioDecode_eq]
  cases f with
  | lri | gfi | xtl | sdf | log | tmp =>
    rw [fieldNumber] at hl hr
    simp (disch := omega) only [if_neg, if_pos]
    rfl

theorem ioDecode_of_status {ioa : Addr} (h : ioa.toNat = 0x7000) : ioDecode ioa = .status := by
  rw [ioDecode_eq, h]
  rfl

theorem ioDecode_of_clock {ioa : Addr} (h : ioa.toNat = 0x7001) : ioDecode ioa = .clock := by
  rw [ioDecode_eq, h]
  rfl

theorem ioDecode_of_unmapped {ioa : Addr} (h : 0x6000 ≤ ioa.toNat ∧ ioa.toNat < 0x7000 ∨ 0x7002 ≤ ioa.toNat) :
    ioDecode ioa = .unmapped := by
  rw [ioDecode_eq]
  simp (disch := omega) only [if_neg]

/-! ## RDF by what its I/O address reaches -/

theorem rowDecodes_rdf : rowDecodes 0x70000000#32 (fun xs _ a => .rdf xs a) := fun _ h => decode_of_row h

theorem exec_rdf_of_ioRead {xs : IndexSel} {a : Addr} {s : State} {v : Word}
    (h : ioRead (ioAddr xs a s) s = some v) : exec (.rdf xs a) s = .next (accStep v s) := by
  rw [exec, execRdf, h]
  rfl

theorem exec_rdf_of_unmapped {xs : IndexSel} {a : Addr} {s : State} (h : ioDecode (ioAddr xs a s) = .unmapped) :
    exec (.rdf xs a) s = .next (implicitHalt s) := by
  rw [exec, execRdf, (ioRead_eq_none_iff _ s).2 h]

/-- Settles O45: RDF loads what `ioRead` answers for the region the I/O address lies in, and halts where it answers
Unmapped. -/
theorem readFollowsTheIoMap : Obligations.ReadFollowsTheIoMap := by
  refine ⟨rowDecodes_rdf, ?_⟩
  rintro xs a s n rfl
  refine ⟨ioAddr_cast xs a s, fun f hl hr => ?field, fun hn => ?status, fun hn => ?clock, fun hn => ?unmapped⟩
  case field => exact exec_rdf_of_ioRead (by rw [ioRead, ioDecode_of_field_region hl hr])
  case status => exact exec_rdf_of_ioRead (by rw [ioRead, ioDecode_of_status hn])
  case clock => exact exec_rdf_of_ioRead (v := clockWord s) (by rw [ioRead, ioDecode_of_clock hn])
  case unmapped => exact exec_rdf_of_unmapped (ioDecode_of_unmapped hn)

/-! ## What a write to the drum or to STATUS makes a later read and poll return -/

/-- A read of the drum after a write, on a drum in canonical form: the word written in the slot written, every other
slot of all fields as before (R272, R273). -/
theorem readField_writeField {s : State} (h : s.drum.wf = true) (f : Field) (a : Int) (w : Word) (f' : Field)
    (x : Int) :
    readField f' x (writeField f a w s) = if f' = f ∧ fieldSlot x = fieldSlot a then w else readField f' x s :=
  drumRead_write h f (fieldSlot a) w f' (fieldSlot x)

/-- `readField_writeField` for an offset that is its own slot. -/
theorem readField_writeField_of_lt {s : State} (h : s.drum.wf = true) (f : Field) {o : Nat} (ho : o < Config.fieldSize)
    (w : Word) (f' : Field) (x : Int) :
    readField f' x (writeField f (o : Int) w s) = if f' = f ∧ fieldSlot x = o then w else readField f' x s := by
  rw [readField_writeField h, fieldSlot_of_lt ho]

/-- A write to a field sets its own channel and keeps the others (R272). -/
theorem checkStatus_field_writeField (f : Field) (a : Int) (w : Word) (s : State) (f' : Field) :
    checkStatus (.field f') (writeField f a w s) = (checkStatus (.field f') s || decide (f' = f)) := by
  rw [checkStatus_field, writeField_chan, chanFlag_setChanFlag]
  by_cases hf : f' = f <;> simp [hf]

/-- A write to STATUS clears exactly the channels whose bit of the word is 1 (R280). -/
theorem checkStatus_writeStatus (v : Word) (s : State) (c : Channel) :
    checkStatus c (writeStatus v s) = (checkStatus c s && !v.getLsbD (channelNumber c)) := by
  rw [writeStatus_eq]
  cases c with
  | field f => cases f <;> rfl
  | lg =>
    rw [checkStatus_lg, checkStatus_lg, channelNumber, apply_ite LightGun.flash, lgConsume_flash]
    cases v.getLsbD 6 <;> simp

/-! ## WRF by what its I/O address reaches -/

theorem rowDecodes_wrf : rowDecodes 0x71000000#32 (fun xs _ a => .wrf xs a) := fun _ h => decode_of_row h

theorem exec_wrf_of_ioWrite {xs : IndexSel} {a : Addr} {s t : State}
    (h : ioWrite (ioAddr xs a s) s.acc s = some t) : exec (.wrf xs a) s = .next (advance t) := by
  rw [exec, execWrf, h]

theorem exec_wrf_of_unmapped {xs : IndexSel} {a : Addr} {s : State} (h : ioDecode (ioAddr xs a s) = .unmapped) :
    exec (.wrf xs a) s = .next (implicitHalt s) := by
  rw [exec, execWrf, (ioWrite_eq_none_iff _ s.acc s).2 h]

theorem exec_wrf_of_field {xs : IndexSel} {a : Addr} {s : State} {f : Field} {o : Nat}
    (h : ioDecode (ioAddr xs a s) = .field f o) :
    exec (.wrf xs a) s = .next (advance (writeField f (o : Int) s.acc s)) :=
  exec_wrf_of_ioWrite (by rw [ioWrite, h])

theorem exec_wrf_of_status {xs : IndexSel} {a : Addr} {s : State} (h : ioDecode (ioAddr xs a s) = .status) :
    exec (.wrf xs a) s = .next (advance (writeStatus s.acc s)) :=
  exec_wrf_of_ioWrite (by rw [ioWrite, h])

/-- A write to STATUS changes the channels, the light gun and the program counter only. -/
theorem advance_writeStatus_frame (v : Word) (s : State) :
    advance (writeStatus v s) =
      { s with chan := (writeStatus v s).chan, lg := (writeStatus v s).lg, pc := s.pc + 1#15 } := by
  rw [writeStatus_frame]
  rfl

/-- Settles O46: WRF does what `ioWrite` does for the region the I/O address lies in, and halts where it answers
Unmapped. -/
theorem writeStoresAndSignals : Obligations.WriteStoresAndSignals := by
  refine ⟨rowDecodes_wrf, ?_⟩
  rintro xs a s n rfl hwf
  refine ⟨ioAddr_cast xs a s, fun f hl hr => ?field, fun hn => ?status, fun hn => ?clock, fun hn => ?unmapped⟩
  case field =>
    have reach := ioDecode_of_field_region hl hr
    have inField : (ioAddr xs a s).toNat - fieldNumber f * 0x1000 < Config.fieldSize := by
      rw [Config.fieldSize]
      omega
    generalize (ioAddr xs a s).toNat - fieldNumber f * 0x1000 = o at reach inField ⊢
    exact ⟨_, exec_wrf_of_field reach, rfl, readField_writeField_of_lt hwf f inField s.acc,
      checkStatus_field_writeField f o s.acc s⟩
  case status =>
    exact ⟨_, exec_wrf_of_status (ioDecode_of_status hn), advance_writeStatus_frame s.acc s,
      checkStatus_writeStatus s.acc s⟩
  case clock => exact exec_wrf_of_ioWrite (by rw [ioWrite, ioDecode_of_clock hn])
  case unmapped => exact exec_wrf_of_unmapped (ioDecode_of_unmapped hn)

end Sys2Proof.Machine

/-! SUPPORT. HLT, and the words that execute as HLT (47_halt.md R260, R261; 30_encoding.md R106, R110). -/

namespace Sys2Proof.Machine

/-! ## HLT -/

theorem rowDecodes_hlt : rowDecodes 0x00000000#32 (fun _ _ _ => .hlt) := fun _ h => decode_of_row h

/-- HLT is the halt that the unrecognised words share. -/
theorem exec_hlt (s : State) : exec .hlt s = .next (implicitHalt s) := rfl

theorem countUp_implicitHalt (s : State) :
    countUp (implicitHalt s) = { s with running := false, pc := s.pc + 1#15, icount := s.icount + 1 } := rfl

/-- Settles O49: a step of a word of the HLT row is the halt, counted. -/
theorem haltStopsAtTheNextWord : Obligations.HaltStopsAtTheNextWord := by
  refine ⟨rowDecodes_hlt, exec_hlt, fun s hr hw => ?step⟩
  case step =>
    have decodesToHlt : decode (fetchWord s) = .instr .hlt := rowDecodes_hlt _ hw
    rw [step_running_instr hr decodesToHlt, exec_hlt, countStep_next, countUp_implicitHalt]

/-! ## The pairs of class and opcode of the opcode map -/

/-- The class and the opcode of an instruction, as bits 30:24 of its word hold them (R102, R106). -/
def opcodePair (i : Instr) : BitVec 7 :=
  (instrFields i).cls ++ (instrFields i).op

/-- The 24 pairs of the opcode map (R106), class by class. -/
def opcodeMapPairs : List (BitVec 7) :=
  [0x00#7, 0x10#7, 0x11#7, 0x20#7, 0x30#7, 0x40#7, 0x41#7, 0x42#7, 0x50#7, 0x51#7, 0x52#7, 0x53#7, 0x54#7, 0x55#7,
    0x60#7, 0x61#7, 0x62#7, 0x63#7, 0x64#7, 0x65#7, 0x70#7, 0x71#7, 0x72#7, 0x73#7]

theorem opcodePair_mem_opcodeMapPairs (i : Instr) : opcodePair i ∈ opcodeMapPairs := by
  cases i <;> simp [opcodePair, instrFields, opcodeMapPairs]

/-- Fields dispatched to an instruction hold its class and opcode. -/
theorem cls_op_of_dispatchFields_instr {f : Fields} {i : Instr} (h : dispatchFields f = .instr i) :
    f.cls = (instrFields i).cls ∧ f.op = (instrFields i).op := by
  unfold dispatchFields at h
  split at h <;> cases h
  all_goals
    next hcls hop => exact ⟨BitVec.eq_of_toNat_eq hcls, BitVec.eq_of_toNat_eq hop⟩

/-- An unrecognised pair is reported by the numbers in the fields. -/
theorem cls_op_of_dispatchFields_unrecognised {f : Fields} {c : BitVec 3} {o : BitVec 4}
    (h : dispatchFields f = .unrecognised c o) : f.cls = c ∧ f.op = o := by
  unfold dispatchFields at h
  split at h <;> cases h
  exact ⟨rfl, rfl⟩

/-- Bits 30:24 of a word that decodes to an instruction are the instruction's pair. -/
theorem extractLsb'_eq_opcodePair_of_decode {w : Word} {i : Instr} (h : decode w = .instr i) :
    w.extractLsb' 24 7 = opcodePair i := by
  obtain ⟨hcls, hop⟩ := cls_op_of_dispatchFields_instr h
  calc w.extractLsb' 24 7
    _ = w.extractLsb' 28 3 ++ w.extractLsb' 24 4 :=
      (BitVec.extractLsb'_append_extractLsb'_eq_extractLsb' (len₁ := 4) (len₂ := 3) rfl).symm
    _ = opcodePair i := congrArg₂ (· ++ ·) hcls hop

theorem decode_of_not_mem_opcodeMapPairs {w : Word} (h : w.extractLsb' 24 7 ∉ opcodeMapPairs) :
    decode w = .unrecognised (w.extractLsb' 28 3) (w.extractLsb' 24 4) := by
  cases hd : decode w with
  | instr i => exact absurd (extractLsb'_eq_opcodePair_of_decode hd ▸ opcodePair_mem_opcodeMapPairs i) h
  | unrecognised c o =>
    obtain ⟨rfl, rfl⟩ := cls_op_of_dispatchFields_unrecognised hd
    rfl

/-! ## Instructions that name no register -/

/-- TIX, LDX and CLX are the only instructions that can be ill-formed, and then they execute as HLT (R110). -/
theorem exec_of_not_wellFormed {i : Instr} (h : i.wellFormed = false) (s : State) : exec i s = exec .hlt s := by
  cases i with
  | tix xs | ldx xs | clx xs =>
    cases xs with
    | none => rfl
    | x0 | x1 | x2 => cases h
  | _ => cases h

/-- Settles O50: a word decodes to an instruction only under that instruction's pair, and a step of any other word is
the halt of HLT. -/
theorem unrecognisedCombinationsHalt : Obligations.UnrecognisedCombinationsHalt := by
  refine ⟨fun w h => decode_of_not_mem_opcodeMapPairs h, fun s c o hr hd => ?step, fun b a s => ?noRegister⟩
  case step => rw [step_running_unrecognised hr hd, countUp_implicitHalt]
  case noRegister =>
    exact ⟨exec_of_not_wellFormed rfl s, exec_of_not_wellFormed rfl s, exec_of_not_wellFormed rfl s⟩

end Sys2Proof.Machine

/-! SUPPORT. The decoder reads back what the encoder writes (30_encoding.md R102, R106, R108). -/

namespace Sys2Proof.Machine

/-! ## The fields and the canonical word -/

/-- The canonical word laid out from bit 31 down, with zeros for bit 31 and bits 21:16 (R102, R108). -/
theorem encodeFields_eq_append (f : Fields) :
    encodeFields f = 0#1 ++ f.cls ++ f.op ++ f.xs ++ 0#6 ++ f.bank ++ f.addr := by
  apply BitVec.eq_of_getLsbD_eq
  intro i hi
  simp only [encodeFields, BitVec.getLsbD_or, BitVec.getLsbD_shiftLeft, BitVec.getLsbD_setWidth,
    BitVec.getLsbD_append, BitVec.getLsbD_zero]
  interval_cases i <;> simp

/-- Each field is cut out of the layout where it was put in. -/
theorem decodeFields_encodeFields (f : Fields) : decodeFields (encodeFields f) = f := by
  rw [encodeFields_eq_append]
  simp (disch := omega) only [decodeFields, BitVec.extractLsb'_append_eq_of_le,
    BitVec.extractLsb'_append_eq_of_add_le, Nat.reduceSub, BitVec.extractLsb'_eq_self]

/-- Bit by bit, the layout of a word's fields is the word with the bits of no field cleared. -/
theorem encodeFields_decodeFields (w : Word) : encodeFields (decodeFields w) = w &&& 0x7FC0FFFF#32 := by
  rw [encodeFields_eq_append, decodeFields]
  apply BitVec.eq_of_getLsbD_eq
  intro i hi
  simp only [BitVec.getLsbD_append, BitVec.getLsbD_extractLsb', BitVec.getLsbD_and]
  interval_cases i <;> simp

/-- Settles O7: both directions are read off the layout of the canonical word. -/
theorem fieldsAndCanonicalWordsAgree : Obligations.FieldsAndCanonicalWordsAgree :=
  ⟨decodeFields_encodeFields, encodeFields_decodeFields⟩

/-! ## Instructions and words -/

/-- The opcode map dispatches the fields of an instruction back to it (R106). -/
theorem dispatchFields_instrFields (i : Instr) : dispatchFields (instrFields i) = .instr i := by
  cases i <;> simp [instrFields, dispatchFields]

/-- Settles O6: the fields come back from the canonical word, and the instruction from its fields. -/
theorem decodeReadsWhatEncodeWrites : Obligations.DecodeReadsWhatEncodeWrites := by
  intro i
  calc decode (encode i)
    _ = dispatchFields (decodeFields (encodeFields (instrFields i))) := decode_eq _
    _ = .instr i := by rw [decodeFields_encodeFields, dispatchFields_instrFields]

/-- Settles O9, on the words as the spec's examples write them. -/
theorem exampleWordsDecode : Obligations.ExampleWordsDecode := by
  unfold Obligations.ExampleWordsDecode
  decide

end Sys2Proof.Machine

/-! SUPPORT. The data part of the state: the accumulator, the index registers, the memory, the drum, the channels and
the light gun (10_state.md R20). What an instruction and a step can do to it is said once here. -/

namespace Sys2Proof.Machine

/-! ## The data part -/

/-- The states agree on the data part; they may differ in the control part. -/
structure SameData (s u : State) : Prop where
  acc : u.acc = s.acc
  ix : u.ix = s.ix
  mem : u.mem = s.mem
  drum : u.drum = s.drum
  chan : u.chan = s.chan
  lg : u.lg = s.lg

theorem SameData.refl (s : State) : SameData s s := ⟨rfl, rfl, rfl, rfl, rfl, rfl⟩

theorem SameData.advance (s : State) : SameData s (advance s) := ⟨rfl, rfl, rfl, rfl, rfl, rfl⟩

theorem SameData.branchTo (b : Bank) (off : Nat) (s : State) : SameData s (branchTo b off s) :=
  ⟨rfl, rfl, rfl, rfl, rfl, rfl⟩

theorem SameData.implicitHalt (s : State) : SameData s (implicitHalt s) := ⟨rfl, rfl, rfl, rfl, rfl, rfl⟩

theorem SameData.countUp {s u : State} (h : SameData s u) : SameData s (countUp u) :=
  ⟨h.acc, h.ix, h.mem, h.drum, h.chan, h.lg⟩

theorem SameData.branchIf (taken : Bool) (b : Bank) (off : Nat) (s : State) : SameData s (branchIf taken b off s) := by
  cases taken
  · exact .advance s
  · exact .branchTo b off s

/-! ## What one instruction does to the data part -/

/-- The writes of data an instruction can make, each with the instructions that make it: the data part it leaves is
that of the state on the right. -/
inductive DataWrite (i : Instr) (s : State) : State → Prop where
  | nothing : DataWrite i s s
  | acc (hi : writesAcc i = true) (v : Word) : DataWrite i s (setAcc v s)
  | index (v : IxWord) : DataWrite i s (setIx (indexWritten i) v s)
  | bankWord (hi : storesInBank i = true) (b : Bank) (a : Int) (v : Word) : DataWrite i s (memWrite b a v s)
  | drumWord {xs : IndexSel} {a : Addr} (hi : i = .wrf xs a) (f : Field) (o : Int) :
    DataWrite i s (writeField f o s.acc s)
  | status {xs : IndexSel} {a : Addr} (hi : i = .wrf xs a) (hioa : ioAddr xs a s = 0x7000#15) :
    DataWrite i s (writeStatus s.acc s)

/-- STATUS is the one I/O address 0x7000 (20_memory.md R72). -/
theorem ioDecode_eq_status {ioa : Addr} (h : ioDecode ioa = .status) : ioa = 0x7000#15 := by
  rw [ioDecode_eq] at h
  split_ifs at h with _ _ _ _ _ _ hs
  exact BitVec.eq_of_toNat_eq hs

theorem execRdf_dataWrite {xs : IndexSel} {a : Addr} {s t : State} (h : execRdf xs a s = .next t) :
    ∃ u, DataWrite (.rdf xs a) s u ∧ SameData u t := by
  rcases execRdf_cases xs a s with ⟨v, -, he⟩ | ⟨-, he⟩ <;> rw [he] at h <;> cases h
  · exact ⟨_, .acc rfl v, .advance _⟩
  · exact ⟨_, .nothing, .implicitHalt s⟩

theorem execWrf_dataWrite {xs : IndexSel} {a : Addr} {s t : State} (h : execWrf xs a s = .next t) :
    ∃ u, DataWrite (.wrf xs a) s u ∧ SameData u t := by
  rcases execWrf_cases xs a s with ⟨u, hu, he⟩ | ⟨-, he⟩ <;> rw [he] at h <;> cases h
  · rcases ioWrite_cases (ioAddr xs a s) s.acc s with ⟨f, o, -, hw⟩ | ⟨hd, hw⟩ | ⟨-, hw⟩ | ⟨-, hw⟩ <;>
      rw [hw] at hu <;> cases hu
    · exact ⟨_, .drumWord rfl f o, .advance _⟩
    · exact ⟨_, .status rfl (ioDecode_eq_status hd), .advance _⟩
    · exact ⟨_, .nothing, .advance s⟩
  · exact ⟨_, .nothing, .implicitHalt s⟩

/-- Every instruction makes at most one write of data, of a kind that belongs to it. -/
theorem exec_dataWrite {i : Instr} {s t : State} (h : exec i s = .next t) :
    ∃ u, DataWrite i s u ∧ SameData u t := by
  cases i with
  | hlt => cases h; exact ⟨s, .nothing, .implicitHalt s⟩
  | lda | add | sub | mul | shlb | shll | shlr | shrb | shrl | shrr => cases h; exact ⟨_, .acc rfl _, .advance _⟩
  | sto | stl | str => cases h; exact ⟨_, .bankWord rfl _ _ _, .advance _⟩
  | jmp | ret => cases h; exact ⟨s, .nothing, .branchTo _ _ s⟩
  | jsr => cases h; exact ⟨_, .bankWord rfl _ _ _, .branchTo _ _ _⟩
  | bnz xs b a => rw [exec_bnz] at h; cases h; exact ⟨s, .nothing, .branchIf _ _ _ s⟩
  | bze xs b a => rw [exec_bze] at h; cases h; exact ⟨s, .nothing, .branchIf _ _ _ s⟩
  | tix xs b a =>
    rcases execTix_cases xs b a s with ⟨-, he⟩ | ⟨old, -, -, he⟩ | ⟨old, -, -, he⟩ <;>
      rw [exec, he] at h <;> cases h
    · exact ⟨s, .nothing, .implicitHalt s⟩
    · exact ⟨_, .index _, .branchTo _ _ _⟩
    · exact ⟨_, .index _, .advance _⟩
  | rdf => exact execRdf_dataWrite h
  | wrf => exact execWrf_dataWrite h
  | ldx xs | clx xs =>
    cases xs with
    | none => cases h; exact ⟨s, .nothing, .implicitHalt s⟩
    | x0 | x1 | x2 => cases h; exact ⟨_, .index _, .advance _⟩

/-- A step writes data only by an instruction that its word decodes to. -/
theorem step_dataWrite {s t : State} (h : step s = .next t) :
    SameData s t ∨ ∃ i u, decode (fetchWord s) = .instr i ∧ DataWrite i s u ∧ SameData u t := by
  rcases step_cases h with ⟨-, rfl⟩ | ⟨-, i, v, hd, hv, rfl⟩ | ⟨-, c, o, -, rfl⟩
  · exact .inl (.refl t)
  · obtain ⟨u, hu, same⟩ := exec_dataWrite hv
    exact .inr ⟨i, u, hd, hu, same.countUp⟩
  · exact .inl (SameData.implicitHalt s).countUp

/-! ## Reads depend on their part of the state alone -/

theorem readField_congr {s t : State} (h : s.drum = t.drum) (f : Field) (a : Int) :
    readField f a s = readField f a t := by
  rw [readField, readField, h]

theorem checkStatus_congr {s t : State} (hchan : s.chan = t.chan) (hlg : s.lg = t.lg) (c : Channel) :
    checkStatus c s = checkStatus c t := by
  cases c with
  | field f => rw [checkStatus_field, checkStatus_field, hchan]
  | lg => rw [checkStatus_lg, checkStatus_lg, hlg]

/-! ## The frames of the instructions -/

theorem exec_mem_of_not_storesInBank {i : Instr} {s t : State} (h : exec i s = .next t)
    (hi : storesInBank i = false) : t.mem = s.mem := by
  obtain ⟨u, hu, same⟩ := exec_dataWrite h
  rw [same.mem]
  cases hu with
  | nothing | acc | index | drumWord => rfl
  | status => exact writeStatus_mem _ s
  | bankWord hi' => rw [hi] at hi'; cases hi'

theorem exec_devices_of_not_writesIo {i : Instr} {s t : State} (h : exec i s = .next t) (hi : writesIo i = false) :
    t.drum = s.drum ∧ t.chan = s.chan ∧ t.lg = s.lg := by
  obtain ⟨u, hu, same⟩ := exec_dataWrite h
  rw [same.drum, same.chan, same.lg]
  cases hu with
  | nothing | acc | index | bankWord => exact ⟨rfl, rfl, rfl⟩
  | drumWord hi' | status hi' => subst hi'; cases hi

/-- Settles O25: the writes of bank words and of devices belong to the instructions named. -/
theorem onlyStoresChangeMemory : Obligations.OnlyStoresChangeMemory := by
  refine fun i s t h => ⟨fun hi b a => memRead_congr (exec_mem_of_not_storesInBank h hi) b a, fun hi => ?devices⟩
  case devices =>
    obtain ⟨hdrum, hchan, hlg⟩ := exec_devices_of_not_writesIo h hi
    exact ⟨readField_congr hdrum, checkStatus_congr hchan hlg, hlg⟩

theorem exec_acc_of_not_writesAcc {i : Instr} {s t : State} (h : exec i s = .next t) (hi : writesAcc i = false) :
    t.acc = s.acc := by
  obtain ⟨u, hu, same⟩ := exec_dataWrite h
  rw [same.acc]
  cases hu with
  | nothing | index | bankWord | drumWord => rfl
  | status => exact writeStatus_acc _ s
  | acc hi' => rw [hi] at hi'; cases hi'

/-- An instruction writes at most the index register it names, and none can name `ix[3]` (R22, R23). -/
theorem exec_ix {i : Instr} {s t : State} (h : exec i s = .next t) :
    t.ix = s.ix ∨ ∃ v, t.ix = ixWith s.ix (indexWritten i) v := by
  obtain ⟨u, hu, same⟩ := exec_dataWrite h
  rw [same.ix]
  cases hu with
  | nothing | acc | bankWord | drumWord => exact .inl rfl
  | status => exact .inl (writeStatus_ix _ s)
  | index v => exact .inr ⟨v, rfl⟩

/-- Settles O26: the only write of an index register is the one of the register named. -/
theorem registersAreWrittenByTheirInstructions : Obligations.RegistersAreWrittenByTheirInstructions := by
  refine fun i s t h => ⟨exec_acc_of_not_writesAcc h, ?_⟩
  rcases exec_ix h with same | ⟨v, written⟩
  · exact ⟨fun xs _ => ixRead?_congr same xs, congrArg IxRegs.ix3 same⟩
  · refine ⟨fun xs hne => ?others, by rw [written, ixWith_ix3]⟩
    case others =>
      calc ixRead? xs t
        _ = ixRead? xs (setIx (indexWritten i) v s) := ixRead?_congr written xs
        _ = ixRead? xs s := ixRead?_setIx_of_ne hne v s

end Sys2Proof.Machine

/-! SUPPORT. The invariant of the machine: canonical stores, a light gun in one of its three states, `ix[3]` zero
(10_state.md R23, R35). -/

namespace Sys2Proof.Machine

/-! ## The invariant and what it depends on -/

theorem inv_iff (s : State) :
    s.inv = true ↔ s.mem.wf = true ∧ s.drum.wf = true ∧ s.lg.legal = true ∧ s.ix.ix3 = 0x0000#16 := by
  simp only [State.inv, Bool.and_eq_true, decide_eq_true_eq, and_assoc]

/-- The pair `armed = 0, flash = 1` is what a legal light gun is not in (R35). -/
theorem legal_iff (g : LightGun) : g.legal = true ↔ ¬(g.armed = false ∧ g.flash = true) := by
  cases ha : g.armed <;> cases hf : g.flash <;> simp [LightGun.legal, ha, hf]

/-- The invariant is about the data part only. -/
theorem SameData.inv {s u : State} (h : SameData s u) (hs : s.inv = true) : u.inv = true := by
  rw [inv_iff] at hs ⊢
  rwa [h.mem, h.drum, h.lg, h.ix]

/-! ## The writes of data keep the invariant -/

theorem inv_memWrite {s : State} (h : s.inv = true) (b : Bank) (a : Int) (v : Word) :
    (memWrite b a v s).inv = true := by
  obtain ⟨hmem, hdrum, hlg, hix⟩ := (inv_iff s).1 h
  exact (inv_iff _).2 ⟨memWrite_wf hmem b a v, hdrum, hlg, hix⟩

theorem inv_writeField {s : State} (h : s.inv = true) (f : Field) (a : Int) (w : Word) :
    (writeField f a w s).inv = true := by
  obtain ⟨hmem, hdrum, hlg, hix⟩ := (inv_iff s).1 h
  exact (inv_iff _).2 ⟨hmem, writeField_wf hdrum f a w, hlg, hix⟩

/-- A new light gun keeps the invariant if it is in one of the three states; the channels take no part. -/
theorem inv_setGun {s : State} (h : s.inv = true) {g : LightGun} (hg : g.legal = true) (ch : Channels) :
    ({ s with chan := ch, lg := g } : State).inv = true := by
  obtain ⟨hmem, hdrum, -, hix⟩ := (inv_iff s).1 h
  exact (inv_iff _).2 ⟨hmem, hdrum, hg, hix⟩

theorem inv_writeStatus {s : State} (h : s.inv = true) (v : Word) : (writeStatus v s).inv = true := by
  obtain ⟨-, -, hlg, -⟩ := (inv_iff s).1 h
  rw [writeStatus_frame]
  exact inv_setGun h (writeStatus_legal v hlg) _

theorem DataWrite.inv {i : Instr} {s u : State} (hw : DataWrite i s u) (h : s.inv = true) : u.inv = true := by
  cases hw with
  | nothing | acc => exact h
  | index v =>
    obtain ⟨hmem, hdrum, hlg, hix⟩ := (inv_iff s).1 h
    exact (inv_iff _).2 ⟨hmem, hdrum, hlg, (ixWith_ix3 s.ix _ v).trans hix⟩
  | bankWord _ b a v => exact inv_memWrite h b a v
  | drumWord _ f o => exact inv_writeField h f o s.acc
  | status => exact inv_writeStatus h s.acc

theorem step_inv {s t : State} (h : s.inv = true) (hs : step s = .next t) : t.inv = true := by
  rcases step_dataWrite hs with same | ⟨i, u, -, hu, same⟩
  · exact same.inv h
  · exact same.inv (hu.inv h)

/-- Settles O28: a step makes at most one write of data, and each kind of write keeps the invariant. -/
theorem everyStepKeepsInvariant : Obligations.EveryStepKeepsInvariant :=
  fun _ _ h hs => step_inv h hs

/-! ## What a host operation does to the data part -/

/-- The writes of data a host operation can make, each with the operations that make it: the data part it leaves is
that of the state on the right. -/
inductive HostDataWrite (o : HostOp) (s : State) : State → Prop where
  | nothing : HostDataWrite o s s
  | program {ws : List Word} {start : Nat} {b : Bank} (ho : o = .loadProgram ws start b) :
    HostDataWrite o s (loadProgram ws start b s)
  | core (ho : o = .reset) : HostDataWrite o s (hostReset s)
  | bankWord {b : Bank} {a : Int} {v : Word} (ho : o = .memWrite b a v) : HostDataWrite o s (memWrite b a v s)
  | drumWord {id : BitVec 3} {a : Int} {w : Word} (ho : o = .writeField id a w) (f : Field) :
    HostDataWrite o s (writeField f a w s)
  | channel {c : Channel} (ho : o = .clearStatus (channelNumber c)) : HostDataWrite o s (clearStatus c s)
  | gun {g : LightGun} (ho : (∃ x y, o = .arm x y) ∨ (∃ c x y, o = .drawEvent c x y) ∨ o = .pollAndClear)
    (hg : s.lg.legal = true → g.legal = true) : HostDataWrite o s { s with lg := g }

/-- The numbers that name a channel are the channels' own (48_drum_io.md R271). -/
theorem eq_channelNumber_of_channelOfNumber {n : Nat} {c : Channel} (h : channelOfNumber n = some c) :
    n = channelNumber c := by
  unfold channelOfNumber at h
  split at h <;> cases h <;> rfl

/-- Every host operation makes at most one write of data, of a kind that belongs to it. -/
theorem hostAct_dataWrite (o : HostOp) (s : State) : ∃ u, HostDataWrite o s u ∧ SameData u (hostAct o s).1 := by
  cases o with
  | loadProgram ws start b =>
    rw [hostAct]
    split
    · exact ⟨s, .nothing, .refl s⟩
    · exact ⟨_, .program rfl, .refl _⟩
  | start | tick | memRead => exact ⟨s, .nothing, ⟨rfl, rfl, rfl, rfl, rfl, rfl⟩⟩
  | reset => exact ⟨_, .core rfl, .refl _⟩
  | tickRealTimeClock e =>
    rw [hostAct]
    split <;> exact ⟨s, .nothing, ⟨rfl, rfl, rfl, rfl, rfl, rfl⟩⟩
  | writeField f a w =>
    rw [hostAct]
    cases fieldOfId f with
    | none => exact ⟨s, .nothing, .refl s⟩
    | some f => exact ⟨_, .drumWord rfl f, .refl _⟩
  | readField f a =>
    rw [hostAct]
    cases fieldOfId f <;> exact ⟨s, .nothing, .refl s⟩
  | checkStatus n =>
    rw [hostAct]
    cases channelOfNumber n <;> exact ⟨s, .nothing, .refl s⟩
  | clearStatus n =>
    rw [hostAct]
    cases hc : channelOfNumber n with
    | none => exact ⟨s, .nothing, .refl s⟩
    | some c => exact ⟨_, .channel (congrArg _ (eq_channelNumber_of_channelOfNumber hc)), .refl _⟩
  | arm x y => exact ⟨_, .gun (.inl ⟨x, y, rfl⟩) fun _ => lgArm_legal x y s.lg, .refl _⟩
  | drawEvent c x y => exact ⟨_, .gun (.inr (.inl ⟨c, x, y, rfl⟩)) fun h => lgDraw_legal h c x y, .refl _⟩
  | pollAndClear => exact ⟨_, .gun (.inr (.inr rfl)) fun _ => lgConsume_legal s.lg, .refl _⟩
  | memWrite b a w => exact ⟨_, .bankWord rfl, .refl _⟩

/-! ## The host operations keep the invariant -/

theorem inv_loadProgram {s : State} (h : s.inv = true) (ws : List Word) (start : Nat) (b : Bank) :
    (loadProgram ws start b s).inv = true := by
  obtain ⟨hmem, hdrum, hlg, hix⟩ := (inv_iff s).1 h
  have canonical : (loadProgram ws start b s).mem.wf = true := loadWords_wf b ws start hmem
  rw [loadProgram_eq]
  exact (inv_iff _).2 ⟨canonical, hdrum, hlg, hix⟩

theorem inv_hostReset {s : State} (h : s.inv = true) : (hostReset s).inv = true := by
  obtain ⟨hmem, hdrum, hlg, -⟩ := (inv_iff s).1 h
  exact (inv_iff _).2 ⟨hmem, hdrum, hlg, rfl⟩

theorem inv_clearStatus {s : State} (h : s.inv = true) (c : Channel) : (clearStatus c s).inv = true := by
  obtain ⟨-, -, hlg, -⟩ := (inv_iff s).1 h
  exact inv_setGun h (clearGun_legal c hlg) _

theorem HostDataWrite.inv {o : HostOp} {s u : State} (hw : HostDataWrite o s u) (h : s.inv = true) : u.inv = true := by
  obtain ⟨-, -, hlg, -⟩ := (inv_iff s).1 h
  cases hw with
  | nothing => exact h
  | program => exact inv_loadProgram h _ _ _
  | core => exact inv_hostReset h
  | bankWord => exact inv_memWrite h _ _ _
  | drumWord => exact inv_writeField h _ _ _
  | channel => exact inv_clearStatus h _
  | gun _ hg => exact inv_setGun h (hg hlg) s.chan

theorem hostAct_inv {s : State} (h : s.inv = true) (o : HostOp) : (hostAct o s).1.inv = true := by
  obtain ⟨u, hu, same⟩ := hostAct_dataWrite o s
  exact same.inv (hu.inv h)

/-! ## Runs of all agents -/

theorem act_inv {o : Op} {s t : State} (h : s.inv = true) (ha : act o s = .next t) : t.inv = true := by
  cases o with
  | cpu => exact step_inv h ha
  | host o => cases ha; exact hostAct_inv h o

theorem act_answers_next (o : Op) (s : State) : ∃ t, act o s = .next t := by
  cases o with
  | cpu => exact step_answers_next s
  | host o => exact ⟨_, rfl⟩

theorem runOps_cons {o : Op} {s t : State} (h : act o s = .next t) (os : List Op) :
    runOps (o :: os) s = runOps os t := by
  rw [runOps, h]

/-- A run of operations answers a next state, and keeps the invariant. -/
theorem runOps_inv (os : List Op) {s : State} (h : s.inv = true) : ∃ t, runOps os s = .next t ∧ t.inv = true := by
  induction os generalizing s with
  | nil => exact ⟨s, rfl, h⟩
  | cons o os ih =>
    obtain ⟨t, ht⟩ := act_answers_next o s
    rw [runOps_cons ht]
    exact ih (act_inv h ht)

theorem powerOn_inv {m : Memory} (h : m.wf = true) : (State.powerOn m).inv = true :=
  (inv_iff _).2 ⟨h, reset_drum_wf, rfl, rfl⟩

/-- Settles O2: the banks are those of `mem_init`, and `State.reset` takes the empty one. -/
theorem powerOnMeetsInvariant : Obligations.PowerOnMeetsInvariant :=
  ⟨fun _ h => powerOn_inv h, powerOn_inv rfl⟩

/-- Settles O29: each agent's operation makes at most one write of data, and each kind of write keeps the invariant; a
run from power-on is then an induction on its operations. -/
theorem everyRunOfAllAgentsKeepsInvariant : Obligations.EveryRunOfAllAgentsKeepsInvariant := by
  refine ⟨fun o s t h ha => act_inv h ha, fun m os hm => ?run⟩
  case run =>
    obtain ⟨t, ht, hinv⟩ := runOps_inv os (powerOn_inv hm)
    obtain ⟨-, -, hlg, hix⟩ := (inv_iff t).1 hinv
    exact ⟨t, ht, hinv, hix, (legal_iff t.lg).1 hlg⟩

end Sys2Proof.Machine

/-! SUPPORT. The host's port of the drum and its channels, and the STATUS register (48_drum_io.md R271 to R280). -/

namespace Sys2Proof.Machine

/-! ## Identifiers on the host port -/

theorem fieldOfId_fieldNumber (f : Field) : fieldOfId (BitVec.ofNat 3 (fieldNumber f)) = some f := by
  cases f <;> rfl

theorem channelOfNumber_channelNumber (c : Channel) : channelOfNumber (channelNumber c) = some c := by
  rcases c with f | _
  · cases f <;> rfl
  · rfl

theorem fieldOfId_eq_none {id : BitVec 3} (h : 6 ≤ id.toNat) : fieldOfId id = none := by
  revert id
  decide

theorem channelNumber_lt (c : Channel) : channelNumber c < 7 := by
  rcases c with f | _
  · cases f <;> decide
  · decide

theorem channelOfNumber_eq_none {n : Nat} (h : 7 ≤ n) : channelOfNumber n = none := by
  rw [Option.eq_none_iff_forall_ne_some]
  intro c hc
  have named := eq_channelNumber_of_channelOfNumber hc
  have small := channelNumber_lt c
  omega

/-- Settles O54: an identifier past the last field or channel is looked up to nothing. -/
theorem unknownFieldChangesNothing : Obligations.UnknownFieldChangesNothing := by
  refine ⟨fieldOfId_fieldNumber, channelOfNumber_channelNumber, fun id a w s h => ?field, fun n s h => ?channel⟩
  case field =>
    rw [hostAct, hostAct, fieldOfId_eq_none h]
    exact ⟨rfl, rfl⟩
  case channel =>
    rw [hostAct, hostAct, channelOfNumber_eq_none h]
    exact ⟨rfl, rfl⟩

/-! ## `write_field` and `read_field` -/

/-- Two offsets reach the same slot of a field just when they are congruent modulo the field's size (R32). -/
theorem fieldSlot_eq_iff (a a' : Int) : fieldSlot a = fieldSlot a' ↔ a % 4096 = a' % 4096 := by
  simp only [fieldSlot, Config.fieldSize, Nat.cast_ofNat]
  omega

/-- Settles O51: a named field is written as a WRF to it writes. -/
theorem fieldWriteSetsItsChannel : Obligations.FieldWriteSetsItsChannel := by
  intro f id a w s hwf hid
  refine ⟨⟨writeField f a w s, ?write, rfl, fun f' x => ?words, checkStatus_field_writeField f a w s⟩, ?read⟩
  case write => rw [hostAct, hid]
  case words =>
    have sameSlot : (f' = f ∧ fieldSlot x = fieldSlot a) ↔ (f' = f ∧ x % 4096 = a % 4096) :=
      and_congr_right fun _ => fieldSlot_eq_iff x a
    rw [readField_writeField hwf]
    exact if_congr sameSlot rfl rfl
  case read => rw [hostAct, hid]

/-! ## `check_status` and `clear_status` -/

theorem checkStatus_clearStatus (c d : Channel) (s : State) :
    checkStatus d (clearStatus c s) = (checkStatus d s && decide (d ≠ c)) := by
  cases c with
  | field f =>
    cases d with
    | field f' =>
      rw [checkStatus_field, clearStatus_chan, clearChan_field, chanFlag_setChanFlag]
      by_cases hf : f' = f <;> simp [hf]
    | lg => simp
  | lg => cases d <;> simp

theorem lgConsume_eq (g : LightGun) :
    lgConsume g = if g.flash = true then { g with flash := false, armed := false } else g := rfl

/-- Only `clear_status(6)` reaches the light gun, to consume a pending flash (49_light_gun.md R296). -/
theorem clearGun_eq (c : Channel) (g : LightGun) :
    clearGun c g = if c = .lg ∧ g.flash = true then { g with flash := false, armed := false } else g := by
  cases c <;> simp [lgConsume_eq]

/-- Settles O52: a number that names a channel is looked up to it, and `clear_status` works on its flag alone. -/
theorem clearStatusClearsItsChannel : Obligations.ClearStatusClearsItsChannel := by
  intro c n s hn
  refine ⟨?check, clearStatus c s, ?clear, rfl, fun d => checkStatus_clearStatus c d s, clearGun_eq c s.lg⟩
  case check => rw [hostAct, hn]
  case clear => rw [hostAct, hn]

/-! ## The STATUS register -/

theorem getLsbD_statusWord_channelNumber (s : State) (c : Channel) :
    (statusWord s).getLsbD (channelNumber c) = checkStatus c s := by
  rw [statusWord]
  simp only [BitVec.getLsbD_append, BitVec.getLsbD_ofBool]
  rcases c with f | _
  · cases f <;> simp [channelNumber, fieldNumber, chanFlag]
  · simp [channelNumber]

theorem getLsbD_statusWord_of_le {i : Nat} (h : 7 ≤ i) (s : State) : (statusWord s).getLsbD i = false := by
  rw [statusWord]
  iterate 7 rw [BitVec.getLsbD_append, if_neg (by omega)]
  exact BitVec.getLsbD_zero

theorem channelNumber_allChannels : ∀ i : Fin 7, channelNumber allChannels[i] = i := by decide

theorem exists_channelNumber_eq {i : Nat} (h : i < 7) : ∃ c, channelNumber c = i :=
  ⟨_, channelNumber_allChannels ⟨i, h⟩⟩

/-- The channels' bits are all there is in the STATUS word. -/
theorem statusWord_eq_zero_iff (s : State) : statusWord s = 0x00000000#32 ↔ ∀ c, checkStatus c s = false := by
  constructor
  · intro hzero c
    rw [← getLsbD_statusWord_channelNumber, hzero, BitVec.getLsbD_zero]
  · intro clear
    apply BitVec.eq_of_getLsbD_eq
    intro i _
    rw [BitVec.getLsbD_zero]
    rcases Nat.lt_or_ge i 7 with channel | unused
    · obtain ⟨c, rfl⟩ := exists_channelNumber_eq channel
      rw [getLsbD_statusWord_channelNumber, clear c]
    · exact getLsbD_statusWord_of_le unused s

/-- Bits 15 and 31 of the STATUS word are clear, so +0 in both halves is the only zero word it can be. -/
theorem isZeroWord_statusWord_iff (s : State) :
    isZeroWord (statusWord s) = true ↔ statusWord s = 0x00000000#32 := by
  have bit15 := getLsbD_statusWord_of_le (i := 15) (by decide) s
  have bit31 := getLsbD_statusWord_of_le (i := 31) (by decide) s
  rw [isZeroWord_iff_mem]
  constructor
  · intro hmem
    simp only [List.mem_cons, List.not_mem_nil, or_false] at hmem
    rcases hmem with h | h | h | h
    · exact h
    · rw [h] at bit15; cases bit15
    · rw [h] at bit31; cases bit31
    · rw [h] at bit15; cases bit15
  · intro h
    rw [h]
    decide

theorem writeStatus_lg (v : Word) (s : State) :
    (writeStatus v s).lg =
      if v.getLsbD 6 = true ∧ s.lg.flash = true then { s.lg with flash := false, armed := false } else s.lg := by
  rw [writeStatus_eq, lgConsume_eq, ite_and]

/-- Settles O47: the I/O address is STATUS, whose word holds the channels' flags bit by bit. -/
theorem statusRegisterReadsAndClears : Obligations.StatusRegisterReadsAndClears := by
  refine ⟨getLsbD_statusWord_channelNumber, fun s i h => getLsbD_statusWord_of_le h s, fun s => ?zero,
    fun xs a s h => ?access⟩
  case zero => rw [isZeroWord_statusWord_iff, statusWord_eq_zero_iff]
  case access =>
    have reach : ioDecode (ioAddr xs a s) = .status := ioDecode_of_status (congrArg BitVec.toNat h)
    exact ⟨exec_rdf_of_ioRead (by rw [ioRead, reach]), _, exec_wrf_of_status reach, advance_writeStatus_frame s.acc s,
      checkStatus_writeStatus s.acc s, writeStatus_lg s.acc s⟩

end Sys2Proof.Machine

/-! SUPPORT. Who clears a channel, who changes the light gun, and who writes the core's registers from outside; power-on
and reset (10_state.md R33, R37; 70_reset_and_hazards.md R340 to R342; 48_drum_io.md R277;
49_light_gun.md R295, R298). -/

namespace Sys2Proof.Machine

/-! ## Set channels -/

/-- Of the writes of an instruction only that of WRF at STATUS clears a set field channel. -/
theorem DataWrite.of_field_cleared {i : Instr} {s u : State} {f : Field} (hw : DataWrite i s u)
    (hs : checkStatus (.field f) s = true) (hu : checkStatus (.field f) u = false) :
    ∃ xs a, i = .wrf xs a ∧ ioAddr xs a s = 0x7000#15 ∧ s.acc.getLsbD (fieldNumber f) = true := by
  cases hw with
  | nothing | acc | index | bankWord => cases hs.symm.trans hu
  | drumWord => rw [checkStatus_field_writeField, hs] at hu; cases hu
  | status hi hioa =>
    rw [checkStatus_writeStatus, hs, Bool.true_and, Bool.not_eq_false'] at hu
    exact ⟨_, _, hi, hioa, hu⟩

/-- Of the writes of a host operation only that of `clear_status` clears a set field channel. -/
theorem HostDataWrite.of_field_cleared {o : HostOp} {s u : State} {f : Field} (hw : HostDataWrite o s u)
    (hs : checkStatus (.field f) s = true) (hu : checkStatus (.field f) u = false) :
    o = .clearStatus (fieldNumber f) := by
  cases hw with
  | nothing | core | bankWord | gun => cases hs.symm.trans hu
  | program => rw [loadProgram_eq] at hu; cases hs.symm.trans hu
  | drumWord => rw [checkStatus_field_writeField, hs] at hu; cases hu
  | channel ho =>
    rw [checkStatus_clearStatus, hs, Bool.true_and, decide_eq_false_iff_not, not_not] at hu
    subst hu
    exact ho

theorem SameData.checkStatus_eq {s u : State} (h : SameData s u) (c : Channel) : checkStatus c u = checkStatus c s :=
  checkStatus_congr h.chan h.lg c

/-! ## The light gun -/

/-- Of the writes of an instruction only that of WRF at STATUS with bit 6 changes the light gun. -/
theorem DataWrite.of_lg_ne {i : Instr} {s u : State} (hw : DataWrite i s u) (hne : u.lg ≠ s.lg) :
    ∃ xs a, i = .wrf xs a ∧ ioAddr xs a s = 0x7000#15 ∧ s.acc.getLsbD 6 = true := by
  cases hw with
  | nothing | acc | index | bankWord | drumWord => exact absurd rfl hne
  | status hi hioa =>
    rw [writeStatus_lg] at hne
    exact ⟨_, _, hi, hioa, (ite_ne_right_iff.1 hne).1.1⟩

/-- Of the writes of a host operation only the gun's own three and `clear_status(6)` change the light gun. -/
theorem HostDataWrite.of_lg_ne {o : HostOp} {s u : State} (hw : HostDataWrite o s u) (hne : u.lg ≠ s.lg) :
    ((∃ x y, o = .arm x y) ∨ (∃ c x y, o = .drawEvent c x y) ∨ o = .pollAndClear) ∨ o = .clearStatus 6 := by
  cases hw with
  | nothing | core | bankWord | drumWord => exact absurd rfl hne
  | program => rw [loadProgram_eq] at hne; exact absurd rfl hne
  | @channel c ho =>
    cases c with
    | field => exact absurd rfl hne
    | lg => exact .inr ho
  | gun ho => exact .inl ho

/-! ## The obligations -/

/-- Settles O53: each agent's operation makes at most one write of data, and only the writes named clear a channel or
change the light gun. -/
theorem channelsAndGunChangeOnlyByTheirOperations : Obligations.ChannelsAndGunChangeOnlyByTheirOperations := by
  refine ⟨fun o f s t h hs ht => ?channel, fun o s t h hne => ?gun⟩
  case channel =>
    cases o with
    | cpu =>
      rcases step_dataWrite h with same | ⟨i, u, hd, hu, same⟩ <;> rw [same.checkStatus_eq] at ht
      · cases hs.symm.trans ht
      · obtain ⟨xs, a, rfl, hioa, hbit⟩ := hu.of_field_cleared hs ht
        exact .inr ⟨rfl, xs, a, hd, hioa, hbit⟩
    | host o =>
      cases h
      obtain ⟨u, hu, same⟩ := hostAct_dataWrite o s
      rw [same.checkStatus_eq] at ht
      exact .inl (congrArg _ (hu.of_field_cleared hs ht))
  case gun =>
    cases o with
    | cpu =>
      rcases step_dataWrite h with same | ⟨i, u, hd, hu, same⟩ <;> rw [same.lg] at hne
      · exact absurd rfl hne
      · obtain ⟨xs, a, rfl, hioa, hbit⟩ := hu.of_lg_ne hne
        exact .inr (.inr (.inr (.inr ⟨rfl, xs, a, hd, hioa, hbit⟩)))
    | host o =>
      cases h
      obtain ⟨u, hu, same⟩ := hostAct_dataWrite o s
      rw [same.lg] at hne
      rcases hu.of_lg_ne hne with (⟨x, y, rfl⟩ | ⟨c, x, y, rfl⟩ | rfl) | rfl
      · exact .inl ⟨x, y, rfl⟩
      · exact .inr (.inl ⟨c, x, y, rfl⟩)
      · exact .inr (.inr (.inl rfl))
      · exact .inr (.inr (.inr (.inl rfl)))

/-- Settles O60: the operations excepted are those that `hostAct_cases` lists, and only `reset()` among them writes the
accumulator, an index register or the count. -/
theorem environmentKeepsCoreRegisters : Obligations.EnvironmentKeepsCoreRegisters := by
  refine fun o s => ⟨fun hload hstart hreset htick hreal => ?view, fun hreset => ?registers⟩
  case view =>
    rcases hostAct_cases o s with ⟨ws, a, b, ho, -⟩ | ⟨ho, -⟩ | ⟨ho, -⟩ | ⟨n, ho | ⟨e, ho⟩, -⟩ | hv
    · exact absurd ho (hload ws a b)
    · exact absurd ho hstart
    · exact absurd ho hreset
    · exact absurd ho (htick n)
    · exact absurd ho (hreal e)
    · exact hv
  case registers =>
    rcases hostAct_cases o s with ⟨ws, a, b, -, -, he⟩ | ⟨-, he⟩ | ⟨ho, -⟩ | ⟨n, -, he⟩ | hv
    · rw [he, loadProgram_eq]
      exact ⟨rfl, rfl, rfl⟩
    · rw [he]
      exact ⟨rfl, rfl, rfl⟩
    · exact absurd ho hreset
    · rw [he]
      exact ⟨rfl, rfl, rfl⟩
    · exact ⟨congrArg CoreView.acc hv, congrArg CoreView.ix hv, congrArg CoreView.icount hv⟩

/-! ## Power-on and reset -/

/-- Settles O1: an empty drum field and a cleared channel read as zero. -/
theorem powerOnIsAllZero : Obligations.PowerOnIsAllZero := by
  refine fun m => ⟨rfl, rfl, rfl, rfl, rfl, rfl, rfl, fun b a => rfl, fun f a => ?drum, fun c => ?status, rfl, rfl, rfl⟩
  case drum => cases f <;> rfl
  case status =>
    rcases c with f | _
    · cases f <;> rfl
    · rfl

/-- Settles O3: what `reset()` keeps reads as before. -/
theorem resetKeepsMemoryAndDevices : Obligations.ResetKeepsMemoryAndDevices :=
  fun s => ⟨hostReset s, rfl, rfl, rfl, rfl, rfl, rfl, rfl, rfl, memRead_congr (hostReset_mem s),
    readField_congr (hostReset_drum s), checkStatus_congr (hostReset_chan s) (hostReset_lg s), rfl⟩

/-! ## Instructions that complete -/

/-- Settles O20: an instruction completes on each way it can take, and a step runs at most one. -/
theorem everyInstructionCompletes : Obligations.EveryInstructionCompletes :=
  ⟨exec_answers_next, step_answers_next⟩

end Sys2Proof.Machine

/-! SUPPORT. The light gun's operations and their sequences, and the clock (49_light_gun.md R291 to R297;
60_exceptions.md R318). -/

namespace Sys2Proof.Machine

/-! ## `draw_event` by the gun's state -/

theorem withinSq_iff (r : Nat) (g : LightGun) (x y : Config.Coord) :
    withinSq r g x y = true ↔ (x - g.tx) ^ 2 + (y - g.ty) ^ 2 ≤ (r : Int) := by
  rw [withinSq, decide_eq_true_eq]

theorem lgDraw_match {g : LightGun} {x y : Config.Coord} (ha : g.armed = true) (hf : g.flash = false)
    (hw : withinSq Config.lgRadiusSq g x y = true) (c : Config.CandId) :
    lgDraw c x y g = ({ g with flash := true, hit := c }, true) := by
  simp [lgDraw, lgDrawWith, ha, hf, hw]

/-- A draw is inert in Disarmed, in FlashPending and outside the radius (R292). -/
theorem lgDraw_inert {g : LightGun} {x y : Config.Coord}
    (h : g.armed = false ∨ g.flash = true ∨ withinSq Config.lgRadiusSq g x y = false) (c : Config.CandId) :
    lgDraw c x y g = (g, false) := by
  rcases h with h | h | h <;> simp [lgDraw, lgDrawWith, h]

theorem hostAct_drawEvent_match {s : State} {x y : Config.Coord} (ha : s.lg.armed = true) (hf : s.lg.flash = false)
    (hw : withinSq Config.lgRadiusSq s.lg x y = true) (c : Config.CandId) :
    hostAct (.drawEvent c x y) s = ({ s with lg := { s.lg with flash := true, hit := c } }, .flag true) := by
  rw [hostAct, lgDraw_match ha hf hw]

theorem hostAct_drawEvent_inert {s : State} {x y : Config.Coord}
    (h : s.lg.armed = false ∨ s.lg.flash = true ∨ withinSq Config.lgRadiusSq s.lg x y = false) (c : Config.CandId) :
    hostAct (.drawEvent c x y) s = (s, .flag false) := by
  rw [hostAct, lgDraw_inert h]

/-- Settles O55: a draw is a match or inert, and a poll consumes a pending flash or finds none. -/
theorem lightGunFollowsItsStates : Obligations.LightGunFollowsItsStates := by
  refine fun s => ⟨fun x y => rfl, fun c x y ha hf hw => ?drawn, fun c x y h => ?inert, fun hf => ?polled,
    fun hf => ?quiet, lgRadiusSq_bounds⟩
  case drawn => exact hostAct_drawEvent_match ha hf ((withinSq_iff _ _ _ _).2 hw) c
  case inert =>
    have outside : (Config.lgRadiusSq : Int) < (x - s.lg.tx) ^ 2 + (y - s.lg.ty) ^ 2 →
        withinSq Config.lgRadiusSq s.lg x y = false := fun far =>
      Bool.eq_false_iff.2 fun hw => absurd ((withinSq_iff _ _ _ _).1 hw) (not_le.2 far)
    exact hostAct_drawEvent_inert (h.imp_right (Or.imp_right outside)) c
  case polled => rw [hostAct, lgPoll, lgConsume_eq, if_pos hf, if_pos hf]
  case quiet => rw [hostAct, lgPoll, lgConsume_eq, hf]; rfl

/-! ## Sequences of draws -/

/-- The calls of `draw_event` for a list of candidates, in order. -/
def drawOps (cs : List (Config.CandId × Config.Coord × Config.Coord)) : List Op :=
  cs.map fun c => .host (.drawEvent c.1 c.2.1 c.2.2)

/-- In FlashPending every later draw is inert. -/
theorem runOps_drawOps_of_flash {s : State} (h : s.lg.flash = true)
    (cs : List (Config.CandId × Config.Coord × Config.Coord)) : runOps (drawOps cs) s = .next s := by
  induction cs with
  | nil => rfl
  | cons c cs ih =>
    have inert : act (.host (.drawEvent c.1 c.2.1 c.2.2)) s = .next s := by
      rw [act, hostAct_drawEvent_inert (.inr (.inl h))]
    rw [drawOps, List.map_cons, runOps_cons inert]
    exact ih

/-- Settles O56, by induction on the candidates: an Armed gun passes over the ones outside the radius, takes the first
inside, and is inert from then on. -/
theorem firstMatchWins : Obligations.FirstMatchWins := by
  intro s cs ha hf
  change runOps (drawOps cs) s = _
  induction cs with
  | nil => rfl
  | cons c cs ih =>
    rw [drawOps, List.map_cons, List.find?_cons]
    cases hw : withinSq Config.lgRadiusSq s.lg c.2.1 c.2.2 with
    | true =>
      have selects : act (.host (.drawEvent c.1 c.2.1 c.2.2)) s =
          .next { s with lg := { s.lg with flash := true, hit := c.1 } } := by
        rw [act, hostAct_drawEvent_match ha hf hw]
      rw [runOps_cons selects]
      exact runOps_drawOps_of_flash rfl cs
    | false =>
      have inert : act (.host (.drawEvent c.1 c.2.1 c.2.2)) s = .next s := by
        rw [act, hostAct_drawEvent_inert (.inr (.inr hw))]
      rw [runOps_cons inert]
      exact ih

/-! ## The clock -/

/-- The pulses of an elapsed time are the whole part of 32 times it (R318). -/
theorem ticksOf_bounds {e : Rat} (h : 0 ≤ e) : (ticksOf e : Rat) ≤ e * 32 ∧ e * 32 < (ticksOf e : Rat) + 1 := by
  have whole : ticksOf e = ⌊e * 32⌋₊ := rfl
  rw [whole]
  exact ⟨Nat.floor_le (by positivity), Nat.lt_floor_add_one _⟩

/-- Settles O59: an elapsed time is the tick of its whole pulses. -/
theorem clockAddsItsPulses : Obligations.ClockAddsItsPulses := by
  refine ⟨fun n s => ⟨tick n s, rfl, rfl, ?pulses⟩, fun e s h => ?elapsed⟩
  case pulses => rw [tick_rtc, BitVec.toNat_add, BitVec.toNat_ofNat, Nat.add_mod_mod]
  case elapsed =>
    obtain ⟨lower, upper⟩ := ticksOf_bounds h
    exact ⟨ticksOf e, lower, upper, by rw [hostAct, hostAct, if_neg (not_lt.2 h)]⟩

end Sys2Proof.Machine

/-! SUPPORT. What a half's value tells of its pattern, and the corner cases of the sum and the halving
(40_word_arithmetic.md R145, R148, R149). -/

namespace Sys2Proof.Machine

/-! ## Patterns and values -/

/-- A half is made of its own sign and magnitude. -/
theorem ofSignMagnitude_self (h : Half) : ofSignMagnitude h.msb (magnitude h) = h := by
  cases hs : h.msb with
  | false => rw [magnitude_of_msb_false hs]; exact BitVec.ofNat_toNat 16 h
  | true =>
    have positive : (~~~h).msb = false := by simp [hs]
    rw [← magnitude_not, magnitude_of_msb_false positive, ofSignMagnitude, if_pos rfl, BitVec.ofNat_toNat,
      BitVec.setWidth_eq, BitVec.not_not]

/-- The halves of magnitude 0 are the two zeros (R145). -/
theorem magnitude_eq_zero_iff (h : Half) : magnitude h = 0 ↔ h = 0x0000#16 ∨ h = 0xFFFF#16 := by
  constructor
  · intro hm
    rw [← ofSignMagnitude_self h, hm]
    cases h.msb
    · exact .inl rfl
    · exact .inr rfl
  · rintro (rfl | rfl) <;> decide

theorem frac_eq_zero_iff (h : Half) : frac h = 0 ↔ h = 0x0000#16 ∨ h = 0xFFFF#16 := by
  rw [← magnitude_eq_zero_iff, frac_eq_withSign]
  cases h.msb <;> simp [withSign]

theorem abs_frac (h : Half) : |frac h| = (magnitude h : Rat) / 32768 := by
  obtain ⟨nonneg, -⟩ := magnitude_div_bounds h
  rw [frac_eq_withSign]
  cases h.msb
  · exact abs_of_nonneg nonneg
  · exact (abs_neg _).trans (abs_of_nonneg nonneg)

theorem wholeUnits_magnitude (m : Nat) : wholeUnits ((m : Rat) / 32768) = m := by
  rw [wholeUnits, div_mul_cancel₀ _ (by norm_num), Nat.floor_natCast]

theorem wholeUnits_zero : wholeUnits 0 = 0 := by simp [wholeUnits]

/-- Off zero the sign bit is the sign of the value. -/
theorem frac_neg_iff {h : Half} (hm : magnitude h ≠ 0) : frac h < 0 ↔ h.msb = true := by
  have positive : 0 < (magnitude h : Rat) / 32768 := by positivity
  rw [frac_eq_withSign]
  cases h.msb
  · simpa [withSign] using positive.le
  · simpa [withSign] using positive

/-- A half off zero comes back from its value: the conversion finds its sign and its magnitude again. -/
theorem fromFraction_frac {h : Half} (hm : magnitude h ≠ 0) : fromFraction (frac h) = h := by
  obtain ⟨-, below⟩ := magnitude_div_bounds h
  obtain ⟨lower, upper⟩ := abs_lt.1 ((abs_frac h).trans_lt below)
  have sign : decide (frac h < 0) = h.msb := by
    rw [Bool.eq_iff_iff, decide_eq_true_eq, frac_neg_iff hm]
  rw [fromFraction_eq_ofSignMagnitude lower upper, sign, abs_frac, wholeUnits_magnitude, ofSignMagnitude_self]

/-- Settles O12: only a half of magnitude 0 loses its pattern in its value. -/
theorem onlyZeroHasTwoPatterns : Obligations.OnlyZeroHasTwoPatterns := by
  have minusZero : frac 0xFFFF#16 = 0 := (frac_eq_zero_iff _).2 (.inr rfl)
  refine ⟨(frac_eq_zero_iff _).2 (.inl rfl), minusZero, ?zero, fun h hp hn => ?back, fun h k same => ?injective⟩
  case zero =>
    rw [minusZero, fromFraction_eq_ofSignMagnitude (by norm_num) (by norm_num), abs_zero, wholeUnits_zero]
    rfl
  case back => exact fromFraction_frac (mt (magnitude_eq_zero_iff h).1 (not_or.2 ⟨hp, hn⟩))
  case injective =>
    by_cases hz : frac h = 0
    · rw [isZeroHalf_iff, isZeroHalf_iff, ← frac_eq_zero_iff, ← frac_eq_zero_iff]
      exact .inr ⟨hz, same ▸ hz⟩
    · have off {j : Half} (hj : frac j ≠ 0) : magnitude j ≠ 0 :=
        mt (magnitude_eq_zero_iff j).1 (mt (frac_eq_zero_iff j).2 hj)
      rw [← fromFraction_frac (off hz), same, fromFraction_frac (off (same ▸ hz))]
      exact .inl rfl

/-! ## The sum -/

/-- +0 arises only from two +0 (R148 (f)): a carry brought around leaves at least 1. -/
theorem eq_zero_of_add1c_eq_zero {a b : Half} (h : add1c a b = 0x0000#16) : a = 0x0000#16 ∧ b = 0x0000#16 := by
  have sum := toNat_add1c a b
  rw [h, BitVec.toNat_zero] at sum
  rw [← BitVec.toNat_inj, ← BitVec.toNat_inj, BitVec.toNat_zero]
  rcases Nat.lt_or_ge (a.toNat + b.toNat) 0x10000 with noCarry | carry
  · rw [if_neg (Nat.not_le.2 noCarry)] at sum
    exact Nat.add_eq_zero_iff.1 sum.symm
  · rw [if_pos carry] at sum
    exact absurd sum.symm (Nat.succ_ne_zero _)

/-- Settles O15: the exact sum, -0 from a half and its complement, and the one way to +0. -/
theorem inRangeSumIsExact : Obligations.InRangeSumIsExact :=
  fun a _ => ⟨frac_add1c_of_inRange, add1c_negate a, eq_zero_of_add1c_eq_zero⟩

/-! ## The halving -/

/-- The bits of `asr1`: each is the one above it, and the sign bit stays (R149). -/
theorem getLsbD_asr1 (h : Half) {i : Nat} (hi : i < 16) :
    (asr1 h).getLsbD i = if i = 15 then h.getLsbD 15 else h.getLsbD (i + 1) := by
  rw [asr1_eq_sshiftRight, BitVec.getLsbD_sshiftRight, BitVec.msb_eq_getLsbD_last]
  rcases Nat.lt_succ_iff_lt_or_eq.1 hi with below | rfl
  · have next : 1 + i < 16 := by omega
    rw [if_pos next, if_neg below.ne, decide_eq_false (by omega), Nat.add_comm]
    rfl
  · rfl

/-- Settles O16: the value is halved toward zero, and the bits move down under a kept sign bit. -/
theorem halvingRoundsTowardZero : Obligations.HalvingRoundsTowardZero := by
  refine fun h => ⟨frac_asr1 h, getLsbD_asr1 h (by decide), getLsbD_asr1 h (by decide), fun i hi => ?below⟩
  case below => rw [getLsbD_asr1 h (by omega), if_neg (by omega)]

end Sys2Proof.Machine

/-! SUPPORT. Stores and links seen by a later fetch and a later RET (20_memory.md R83; 45_branch.md R246). -/

namespace Sys2Proof.Machine

/-- Settles O24: the next fetch reads the slot that the STO wrote. -/
theorem storedWordIsFetchedNext : Obligations.StoredWordIsFetchedNext := by
  rintro xs b a s hwf hr rfl hd hslot
  refine ⟨countUp (storeOperand xs s.pcBank a s.acc s), ?step, hr, ?fetch⟩
  case step => rw [step_running_instr hr hd, exec_sto, countStep_next]
  case fetch =>
    calc fetchWord (countUp (storeOperand xs s.pcBank a s.acc s))
      _ = memRead s.pcBank ((s.pc + 1#15).toNat : Int) (storeOperand xs s.pcBank a s.acc s) := rfl
      _ = s.acc := by rw [memRead_storeOperand hwf, if_pos ⟨rfl, hslot.symm⟩]

/-- Following a link word leads to the word after the call that stored it (R244, R246). -/
theorem branchTo_linkWord (s u : State) :
    branchTo (linkBank (linkWord s)) (linkOffset (linkWord s)) u =
      { u with pc := s.pc + 1#15, pcBank := s.pcBank } := by
  rw [branchTo_linkOffset, linkWord_offset, linkBank_eq, linkWord_bank]
  cases s.pcBank <;> rfl

/-- Settles O44: the slot the RET reads holds the link word the JSR stored. -/
theorem returnResumesAfterTheCall : Obligations.ReturnResumesAfterTheCall := by
  intro xs ys b a c s t u hwf hjsr haddr hkept
  cases hjsr
  have link : operand ys b c u = linkWord s :=
    calc operand ys b c u
      _ = memRead b (effAddr xs b a s : Int) u := by rw [operand, haddr]
      _ = memRead b (effAddr xs b a s : Int) (memWrite b (effAddr xs b a s : Int) (linkWord s) s) := hkept
      _ = linkWord s := by rw [memRead_memWrite hwf, if_pos ⟨rfl, rfl⟩]
  rw [exec_ret, link, branchTo_linkWord]

end Sys2Proof.Machine
